-- ==== Sys2Proof/Word.lean ====
section
/-! DEFINITION. The word types of VK-CHIP8-CORE, named once (R10: every value is an unsigned integer of a fixed width). -/

namespace Sys2Proof

/-- Four bits: a register index X or Y, a family, a function selector (R9, R12). -/
abbrev Nibble := BitVec 4

/-- Eight bits: a general register, a memory byte, an immediate NN (R12, R20, R31). -/
abbrev Byte := BitVec 8

/-- Twelve bits: an address operand NNN (R12). -/
abbrev Addr := BitVec 12

/-- Sixteen bits: pc, I, a call-stack slot, an instruction word (R23, R24, R27, R75). -/
abbrev Word := BitVec 16

end Sys2Proof
end

