-- ==== Sys2Proof/Config.lean ====
section
/-! DEFINITION. What is fixed for the machine (R7), the parameter DRAW_EDGE_MODE (R8, R128), and the two values the
spec leaves open, each without a body, so that no proof can use a particular value (R8; D10, D11; log 1, 4, 12). -/

namespace Sys2Proof

/-- MEM_SIZE: memory has 4096 bytes (R7, R31). -/
def Config.memSize : Nat := 4096

/-- PROG_BASE: the load address and the reset value of pc (R7, R24). -/
def Config.progBase : Nat := 0x200

/-- INSN_BYTES: every instruction is two bytes (R7, R75). -/
def Config.insnBytes : Nat := 2

/-- STACK_DEPTH: the call stack has 16 levels (R7, R27). -/
def Config.stackDepth : Nat := 16

/-- FB_W: the framebuffer is 64 pixels wide (R7, R32). -/
def Config.fbWidth : Nat := 64

/-- FB_H: the framebuffer is 32 pixels high (R7, R32). -/
def Config.fbHeight : Nat := 32

/-- The number of pixels, 2048 (R7, R32). -/
def Config.fbPixels : Nat := 2048

/-- PITCH: the bytes of one row on the present port (R7). -/
def Config.pitch : Nat := 256

/-- The longest ROM a load accepts: 4096 - 0x200 bytes (R223, R224). -/
def Config.maxRom : Nat := 3584

/-- The three values of the parameter DRAW_EDGE_MODE (R8, R128). -/
inductive EdgeMode where
  /-- The linear index of the reference; an index of 2048 or more faults. The default. -/
  | spill
  /-- A pixel past column 63 or row 31 is dropped. -/
  | clip
  /-- The column wraps modulo 64 and the row modulo 32. -/
  | wrap
  deriving DecidableEq, Repr

/-- FREE VALUE. The n-th random byte the host supplies with a step (R6, R169, D10: 'a free input with no law').
DESIGN CHOICE of the form (log 1); safe: no proof can see a value. -/
opaque Config.rndInput : Nat → Byte

/-- FREE VALUE. PIXEL_ON less one: any of the 2 ^ 32 - 1 nonzero 32-bit values is possible (R8, R33, D11; log 4).
Safe: no proof can see which. -/
opaque Config.pixelOnPred : Fin 4294967295

/-- PIXEL_ON, the 32-bit value of a lit pixel on the present port: fixed, nonzero, otherwise unknown (R8, R33). -/
def Config.pixelOn : BitVec 32 := BitVec.ofNat 32 (Config.pixelOnPred.val + 1)

/-- FREE VALUE. R224 and R225 both apply to a load that is oversized AND comes after the start, and they give LDSTAT
different codes; the argument is the length of the ROM. True stands for R224's code. Safe (log 12). -/
opaque Config.lateOversize : Nat → Bool

end Sys2Proof
end

