-- ==== Sys2Proof/Syntax.lean ====
section
/-! DEFINITION. The instructions: one constructor per row of spec/opcode_table.json (46 rows; R83 prints the NOP rows of
families 0 and 8 in one line each). Every field of a row is an argument, the ignored bits too, so that no bit of a word is
lost by decoding: FINSN and the encoder need nothing else. The meanings do not read an ignored field (R79, R81, R82). -/

namespace Sys2Proof

/-- The mnemonics of the opcode table (R83, R87). -/
inductive Mnemonic where
  | clear | ret | nop | jump | call | skipEqImm | skipNeImm | skipEqReg | loadImm | addImm | move | or | and | xor
  | addCarry | subBorrow | skipNeReg | loadIndex | jumpOffset | random | draw
  deriving DecidableEq, Repr

/-- An instruction. `mid` is the ignored field of bits 11:4 (format Z), `low` the ignored bits 3:0 of families 5 and 9,
`rest` the ignored bits 11:0 of families E and F; `x`, `y`, `nn`, `nnn` are the fields of R12. The row count of DRAW is a
number (a count, R12); `Instr.WellFormed` bounds it. -/
inductive Instr where
  /-- 0--0 CLEAR (R120). -/
  | clear (mid : Byte)
  /-- 0--E RETURN (R140). -/
  | ret (mid : Byte)
  /-- 0--1 NOP (R79, R108). -/
  | nop01 (mid : Byte)
  /-- 0--2 NOP (R79, R108). -/
  | nop02 (mid : Byte)
  /-- 0--3 NOP (R79, R108). -/
  | nop03 (mid : Byte)
  /-- 0--4 NOP (R79, R108). -/
  | nop04 (mid : Byte)
  /-- 0--5 NOP (R79, R108). -/
  | nop05 (mid : Byte)
  /-- 0--6 NOP (R79, R108). -/
  | nop06 (mid : Byte)
  /-- 0--7 NOP (R79, R108). -/
  | nop07 (mid : Byte)
  /-- 0--8 NOP (R79, R108). -/
  | nop08 (mid : Byte)
  /-- 0--9 NOP (R79, R108). -/
  | nop09 (mid : Byte)
  /-- 0--A NOP (R79, R108). -/
  | nop0A (mid : Byte)
  /-- 0--B NOP (R79, R108). -/
  | nop0B (mid : Byte)
  /-- 0--C NOP (R79, R108). -/
  | nop0C (mid : Byte)
  /-- 0--D NOP (R79, R108). -/
  | nop0D (mid : Byte)
  /-- 0--F NOP (R79, R108). -/
  | nop0F (mid : Byte)
  /-- 1NNN JUMP (R141). -/
  | jump (nnn : Addr)
  /-- 2NNN CALL (R142). -/
  | call (nnn : Addr)
  /-- 3XNN SKIP_EQ_IMM (R143). -/
  | skipEqImm (x : Nibble) (nn : Byte)
  /-- 4XNN SKIP_NE_IMM (R144). -/
  | skipNeImm (x : Nibble) (nn : Byte)
  /-- 5XY- SKIP_EQ_REG (R145). -/
  | skipEqReg (x y low : Nibble)
  /-- 6XNN LOAD_IMM (R160). -/
  | loadImm (x : Nibble) (nn : Byte)
  /-- 7XNN ADD_IMM (R161). -/
  | addImm (x : Nibble) (nn : Byte)
  /-- 8XY0 MOVE (R162). -/
  | move (x y : Nibble)
  /-- 8XY1 OR (R163). -/
  | or (x y : Nibble)
  /-- 8XY2 AND (R164). -/
  | and (x y : Nibble)
  /-- 8XY3 XOR (R165). -/
  | xor (x y : Nibble)
  /-- 8XY4 ADD_CARRY (R166). -/
  | addCarry (x y : Nibble)
  /-- 8XY5 SUB_BORROW (R167). -/
  | subBorrow (x y : Nibble)
  /-- 8XY6 NOP (R80, R108). -/
  | nop86 (x y : Nibble)
  /-- 8XY7 NOP (R80, R108). -/
  | nop87 (x y : Nibble)
  /-- 8XY8 NOP (R80, R108). -/
  | nop88 (x y : Nibble)
  /-- 8XY9 NOP (R80, R108). -/
  | nop89 (x y : Nibble)
  /-- 8XYA NOP (R80, R108). -/
  | nop8A (x y : Nibble)
  /-- 8XYB NOP (R80, R108). -/
  | nop8B (x y : Nibble)
  /-- 8XYC NOP (R80, R108). -/
  | nop8C (x y : Nibble)
  /-- 8XYD NOP (R80, R108). -/
  | nop8D (x y : Nibble)
  /-- 8XYE NOP (R80, R108). -/
  | nop8E (x y : Nibble)
  /-- 8XYF NOP (R80, R108). -/
  | nop8F (x y : Nibble)
  /-- 9XY- SKIP_NE_REG (R146). -/
  | skipNeReg (x y low : Nibble)
  /-- ANNN LOAD_INDEX (R168). -/
  | loadIndex (nnn : Addr)
  /-- BNNN JUMP_OFFSET (R147). -/
  | jumpOffset (nnn : Addr)
  /-- CXNN RANDOM (R169). -/
  | random (x : Nibble) (nn : Byte)
  /-- DXYN DRAW (R121). -/
  | draw (x y : Nibble) (n : Nat)
  /-- E--- NOP (R82, R108). -/
  | nopE (rest : Addr)
  /-- F--- NOP (R82, R108). -/
  | nopF (rest : Addr)
  deriving DecidableEq, Repr

end Sys2Proof
end

