-- ==== Sys2Proof/WellFormed.lean ====
section
/-! DEFINITION. Well-formed instructions. A field's type is exactly as wide as the field (R76), so the only operand that
can be out of its range is DRAW's row count, which is a number. -/

namespace Sys2Proof

/-- An operand is in the range its field admits: N is 0 to 0xF (R87, R121); every other operand is so by its type. -/
def Instr.WellFormed : Instr → Bool
  | .draw _ _ n => n < 16
  | .clear _ | .ret _ | .jump _ | .call _ | .skipEqImm _ _ | .skipNeImm _ _ | .skipEqReg _ _ _ | .loadImm _ _ => true
  | .addImm _ _ | .move _ _ | .or _ _ | .and _ _ | .xor _ _ | .addCarry _ _ | .subBorrow _ _ => true
  | .skipNeReg _ _ _ | .loadIndex _ | .jumpOffset _ | .random _ _ => true
  | .nop01 _ | .nop02 _ | .nop03 _ | .nop04 _ | .nop05 _ | .nop06 _ | .nop07 _ | .nop08 _ | .nop09 _ | .nop0A _ | .nop0B _ | .nop0C _ | .nop0D _ | .nop0F _ => true
  | .nop86 _ _ | .nop87 _ _ | .nop88 _ _ | .nop89 _ _ | .nop8A _ _ | .nop8B _ _ | .nop8C _ _ | .nop8D _ _ | .nop8E _ _ | .nop8F _ _ => true
  | .nopE _ | .nopF _ => true

end Sys2Proof
end

