-- ==== Sys2Proof/Decode.lean ====
section
/-! DEFINITION. Decoding: the fields of a word (R76), the two-level dispatch (R78 to R82), the decoder of a byte string
(R53, R75), then the encoder, and the opcode map of R83 as data, for the claim that the dispatch follows it. -/

namespace Sys2Proof

/-! ## Fields (R76) -/

/-- F, the family: w[15:12]. -/
def fieldF (w : Word) : Nibble := w.extractLsb' 12 4

/-- X: w[11:8]. -/
def fieldX (w : Word) : Nibble := w.extractLsb' 8 4

/-- Y: w[7:4]. -/
def fieldY (w : Word) : Nibble := w.extractLsb' 4 4

/-- N, also the function selector of families 0 and 8 and the ignored bits of families 5 and 9: w[3:0]. -/
def fieldN (w : Word) : Nibble := w.extractLsb' 0 4

/-- NN: w[7:0]. -/
def fieldNN (w : Word) : Byte := w.extractLsb' 0 8

/-- NNN, also the ignored bits of families E and F: w[11:0]. -/
def fieldNNN (w : Word) : Addr := w.extractLsb' 0 12

/-- The ignored bits of format Z: w[11:4] (R77, R79). -/
def fieldMid (w : Word) : Byte := w.extractLsb' 4 8

/-! ## The decoder -/

/-- The intermediate dispatcher of family 0, on the low nibble alone (R79). -/
def decodeFamily0 (w : Word) : Instr :=
  match (fieldN w).toNat with
  | 0x0 => .clear (fieldMid w)
  | 0x1 => .nop01 (fieldMid w)
  | 0x2 => .nop02 (fieldMid w)
  | 0x3 => .nop03 (fieldMid w)
  | 0x4 => .nop04 (fieldMid w)
  | 0x5 => .nop05 (fieldMid w)
  | 0x6 => .nop06 (fieldMid w)
  | 0x7 => .nop07 (fieldMid w)
  | 0x8 => .nop08 (fieldMid w)
  | 0x9 => .nop09 (fieldMid w)
  | 0xA => .nop0A (fieldMid w)
  | 0xB => .nop0B (fieldMid w)
  | 0xC => .nop0C (fieldMid w)
  | 0xD => .nop0D (fieldMid w)
  | 0xE => .ret (fieldMid w)
  | _ => .nop0F (fieldMid w)

/-- The intermediate dispatcher of family 8, on the low nibble (R80). -/
def decodeFamily8 (w : Word) : Instr :=
  match (fieldN w).toNat with
  | 0x0 => .move (fieldX w) (fieldY w)
  | 0x1 => .or (fieldX w) (fieldY w)
  | 0x2 => .and (fieldX w) (fieldY w)
  | 0x3 => .xor (fieldX w) (fieldY w)
  | 0x4 => .addCarry (fieldX w) (fieldY w)
  | 0x5 => .subBorrow (fieldX w) (fieldY w)
  | 0x6 => .nop86 (fieldX w) (fieldY w)
  | 0x7 => .nop87 (fieldX w) (fieldY w)
  | 0x8 => .nop88 (fieldX w) (fieldY w)
  | 0x9 => .nop89 (fieldX w) (fieldY w)
  | 0xA => .nop8A (fieldX w) (fieldY w)
  | 0xB => .nop8B (fieldX w) (fieldY w)
  | 0xC => .nop8C (fieldX w) (fieldY w)
  | 0xD => .nop8D (fieldX w) (fieldY w)
  | 0xE => .nop8E (fieldX w) (fieldY w)
  | _ => .nop8F (fieldX w) (fieldY w)

/-- The first level: one of 16 handlers by the family nibble (R78, R81, R82). Total: every word has a row (R84, R85). -/
def decodeWord (w : Word) : Instr :=
  match (fieldF w).toNat with
  | 0x0 => decodeFamily0 w
  | 0x1 => .jump (fieldNNN w)
  | 0x2 => .call (fieldNNN w)
  | 0x3 => .skipEqImm (fieldX w) (fieldNN w)
  | 0x4 => .skipNeImm (fieldX w) (fieldNN w)
  | 0x5 => .skipEqReg (fieldX w) (fieldY w) (fieldN w)
  | 0x6 => .loadImm (fieldX w) (fieldNN w)
  | 0x7 => .addImm (fieldX w) (fieldNN w)
  | 0x8 => decodeFamily8 w
  | 0x9 => .skipNeReg (fieldX w) (fieldY w) (fieldN w)
  | 0xA => .loadIndex (fieldNNN w)
  | 0xB => .jumpOffset (fieldNNN w)
  | 0xC => .random (fieldX w) (fieldNN w)
  | 0xD => .draw (fieldX w) (fieldY w) (fieldN w).toNat
  | 0xE => .nopE (fieldNNN w)
  | _ => .nopF (fieldNNN w)

/-- IR, formed from the two bytes fetched, big-endian: the byte at the lower address is bits 15:8 (R53, R104). -/
def wordOfBytes (hi lo : Byte) : Word := hi ++ lo

/-- Why a byte string is no instruction. No WORD is illegal (R84), so the one reason is that two bytes are not there. -/
inductive DecodeError where
  /-- Fewer than the two bytes of an instruction (R75). -/
  | truncated
  deriving DecidableEq, Repr

/-- The first instruction of a byte string and what is left of it (R53, R75). -/
def decode : List Byte → Except DecodeError (Instr × List Byte)
  | hi :: lo :: rest => .ok (decodeWord (wordOfBytes hi lo), rest)
  | _ => .error .truncated

/-- The instruction the decoder reads from an opcode-table word: bit 0 of `w` is the least significant bit of the
16-bit word; bits at `nbits` and above are 0; the word is laid out big-endian, as memory holds it. -/
def decodeTableWord (nbits w : Nat) : Option Instr :=
  let word : Word := BitVec.ofNat 16 (w % 2 ^ nbits)
  match decode [word.extractLsb' 8 8, word.extractLsb' 0 8] with
  | .ok (i, _) => some i
  | .error _ => none

/-! ## The encoder (R77, R83) -/

/-- Format A, and the layout of families E and F. -/
def wordA (f : Nibble) (nnn : Addr) : Word := f ++ nnn

/-- Format XK. -/
def wordXK (f x : Nibble) (nn : Byte) : Word := (f ++ x : Byte) ++ nn

/-- Formats XY, XYF and XYN. -/
def wordXYN (f x y n : Nibble) : Word := (f ++ x : Byte) ++ (y ++ n : Byte)

/-- Format Z. -/
def wordZ (f : Nibble) (mid : Byte) (n : Nibble) : Word := (f ++ mid : Addr) ++ n

/-- The word of an instruction, ignored bits included. -/
def encode : Instr → Word
  | .clear mid => wordZ 0x0 mid 0x0
  | .ret mid => wordZ 0x0 mid 0xE
  | .nop01 mid => wordZ 0x0 mid 0x1
  | .nop02 mid => wordZ 0x0 mid 0x2
  | .nop03 mid => wordZ 0x0 mid 0x3
  | .nop04 mid => wordZ 0x0 mid 0x4
  | .nop05 mid => wordZ 0x0 mid 0x5
  | .nop06 mid => wordZ 0x0 mid 0x6
  | .nop07 mid => wordZ 0x0 mid 0x7
  | .nop08 mid => wordZ 0x0 mid 0x8
  | .nop09 mid => wordZ 0x0 mid 0x9
  | .nop0A mid => wordZ 0x0 mid 0xA
  | .nop0B mid => wordZ 0x0 mid 0xB
  | .nop0C mid => wordZ 0x0 mid 0xC
  | .nop0D mid => wordZ 0x0 mid 0xD
  | .nop0F mid => wordZ 0x0 mid 0xF
  | .jump nnn => wordA 0x1 nnn
  | .call nnn => wordA 0x2 nnn
  | .skipEqImm x nn => wordXK 0x3 x nn
  | .skipNeImm x nn => wordXK 0x4 x nn
  | .skipEqReg x y low => wordXYN 0x5 x y low
  | .loadImm x nn => wordXK 0x6 x nn
  | .addImm x nn => wordXK 0x7 x nn
  | .move x y => wordXYN 0x8 x y 0x0
  | .or x y => wordXYN 0x8 x y 0x1
  | .and x y => wordXYN 0x8 x y 0x2
  | .xor x y => wordXYN 0x8 x y 0x3
  | .addCarry x y => wordXYN 0x8 x y 0x4
  | .subBorrow x y => wordXYN 0x8 x y 0x5
  | .nop86 x y => wordXYN 0x8 x y 0x6
  | .nop87 x y => wordXYN 0x8 x y 0x7
  | .nop88 x y => wordXYN 0x8 x y 0x8
  | .nop89 x y => wordXYN 0x8 x y 0x9
  | .nop8A x y => wordXYN 0x8 x y 0xA
  | .nop8B x y => wordXYN 0x8 x y 0xB
  | .nop8C x y => wordXYN 0x8 x y 0xC
  | .nop8D x y => wordXYN 0x8 x y 0xD
  | .nop8E x y => wordXYN 0x8 x y 0xE
  | .nop8F x y => wordXYN 0x8 x y 0xF
  | .skipNeReg x y low => wordXYN 0x9 x y low
  | .loadIndex nnn => wordA 0xA nnn
  | .jumpOffset nnn => wordA 0xB nnn
  | .random x nn => wordXK 0xC x nn
  | .draw x y n => wordXYN 0xD x y (BitVec.ofNat 4 n)
  | .nopE rest => wordA 0xE rest
  | .nopF rest => wordA 0xF rest

/-- The two bytes of an instruction as memory holds them, the high byte first (R53). -/
def encodeBytes (i : Instr) : List Byte := [(encode i).extractLsb' 8 8, (encode i).extractLsb' 0 8]

/-- The same instruction with its ignored bits as an assembler emits them: 0x00E0, 0x00EE, 0x5XY0, 0x9XY0 (R89). The
unmapped words have no canonical word (R88) and stay. -/
def Instr.canonical : Instr → Instr
  | .clear _ => .clear 0x0E
  | .ret _ => .ret 0x0E
  | .skipEqReg x y _ => .skipEqReg x y 0x0
  | .skipNeReg x y _ => .skipNeReg x y 0x0
  | i => i

/-- The row's mnemonic (R83). -/
def Instr.mnemonic : Instr → Mnemonic
  | .clear _ => .clear
  | .ret _ => .ret
  | .jump _ => .jump
  | .call _ => .call
  | .skipEqImm _ _ => .skipEqImm
  | .skipNeImm _ _ => .skipNeImm
  | .skipEqReg _ _ _ => .skipEqReg
  | .loadImm _ _ => .loadImm
  | .addImm _ _ => .addImm
  | .move _ _ => .move
  | .or _ _ => .or
  | .and _ _ => .and
  | .xor _ _ => .xor
  | .addCarry _ _ => .addCarry
  | .subBorrow _ _ => .subBorrow
  | .skipNeReg _ _ _ => .skipNeReg
  | .loadIndex _ => .loadIndex
  | .jumpOffset _ => .jumpOffset
  | .random _ _ => .random
  | .draw _ _ _ => .draw
  | .nop01 _ | .nop02 _ | .nop03 _ | .nop04 _ | .nop05 _ | .nop06 _ | .nop07 _ | .nop08 _ | .nop09 _ | .nop0A _ | .nop0B _ | .nop0C _ | .nop0D _ | .nop0F _ => .nop
  | .nop86 _ _ | .nop87 _ _ | .nop88 _ _ | .nop89 _ _ | .nop8A _ _ | .nop8B _ _ | .nop8C _ _ | .nop8D _ _ | .nop8E _ _ | .nop8F _ _ => .nop
  | .nopE _ | .nopF _ => .nop

/-! ## The opcode map as data (R83, opcode_table.json) -/

/-- The six formats of R77, and `none` for families E and F. -/
inductive Format where
  | a | xk | xy | xyf | xyn | z | none
  deriving DecidableEq, Repr

/-- One row: a word w selects it when w &&& mask = pattern (R83). -/
structure OpcodeRow where
  mnemonic : Mnemonic
  format : Format
  mask : Word
  pattern : Word
  deriving DecidableEq, Repr

/-- The word selects the row. -/
def OpcodeRow.selects (r : OpcodeRow) (w : Word) : Bool := w &&& r.mask == r.pattern

/-- The rows of family 0. -/
def opcodeMapFamily0 : List OpcodeRow :=
  [⟨.clear, .z, 0xF00F, 0x0000⟩, ⟨.ret, .z, 0xF00F, 0x000E⟩] ++
  [0x0001, 0x0002, 0x0003, 0x0004, 0x0005, 0x0006, 0x0007, 0x0008, 0x0009, 0x000A, 0x000B, 0x000C, 0x000D, 0x000F].map
    fun p => ⟨.nop, .z, 0xF00F, p⟩

/-- The rows of families 1 to 7. -/
def opcodeMapFamilies1to7 : List OpcodeRow :=
  [⟨.jump, .a, 0xF000, 0x1000⟩, ⟨.call, .a, 0xF000, 0x2000⟩, ⟨.skipEqImm, .xk, 0xF000, 0x3000⟩,
   ⟨.skipNeImm, .xk, 0xF000, 0x4000⟩, ⟨.skipEqReg, .xy, 0xF000, 0x5000⟩, ⟨.loadImm, .xk, 0xF000, 0x6000⟩,
   ⟨.addImm, .xk, 0xF000, 0x7000⟩]

/-- The rows of family 8. -/
def opcodeMapFamily8 : List OpcodeRow :=
  [⟨.move, .xyf, 0xF00F, 0x8000⟩, ⟨.or, .xyf, 0xF00F, 0x8001⟩, ⟨.and, .xyf, 0xF00F, 0x8002⟩,
   ⟨.xor, .xyf, 0xF00F, 0x8003⟩, ⟨.addCarry, .xyf, 0xF00F, 0x8004⟩, ⟨.subBorrow, .xyf, 0xF00F, 0x8005⟩] ++
  [0x8006, 0x8007, 0x8008, 0x8009, 0x800A, 0x800B, 0x800C, 0x800D, 0x800E, 0x800F].map
    fun p => ⟨.nop, .xyf, 0xF00F, p⟩

/-- The rows of families 9 to F. -/
def opcodeMapFamilies9toF : List OpcodeRow :=
  [⟨.skipNeReg, .xy, 0xF000, 0x9000⟩, ⟨.loadIndex, .a, 0xF000, 0xA000⟩, ⟨.jumpOffset, .a, 0xF000, 0xB000⟩,
   ⟨.random, .xk, 0xF000, 0xC000⟩, ⟨.draw, .xyn, 0xF000, 0xD000⟩, ⟨.nop, .none, 0xF000, 0xE000⟩,
   ⟨.nop, .none, 0xF000, 0xF000⟩]

/-- The complete opcode map, 46 rows in the table's order (R83). -/
def opcodeMap : List OpcodeRow :=
  opcodeMapFamily0 ++ opcodeMapFamilies1to7 ++ opcodeMapFamily8 ++ opcodeMapFamilies9toF

end Sys2Proof
end

