-- ==== Sys2Proof/Machine/State.lean ====
section
/-! DEFINITION. The machine's state as plain data, its fault and refusal reasons, and the state after reset. -/

namespace Sys2Proof.Machine

/-- Memory: the bytes that are not 0, by address, addresses strictly rising (R31, R50; log 11). An address that is not
listed holds 0, the reset value of every byte (R31). -/
abbrev Memory := List Host.Cell

/-- The framebuffer, 32 rows of 64 one-bit pixels: bit x of row y is FB[y * 64 + x] (R32, R33; log 8). -/
abbrev FrameBuffer := Vector (BitVec 64) 32

/-- Why a fetch or a handler raises (R190), with the value FADDR records. A raise is TAKEN, as a next state with the
status registers written (`takeFault`, R195; log 2): no step ends in `Host.Outcome.fault`. -/
inductive Fault where
  /-- Raised by the fetch (R103) and by DRAW's row read (R124), for a read of the address `a` at 4096 or above. Safe: it
  is the spec's own fault, taken as R195 says. -/
  | addressOutOfRange (a : Nat)
  /-- Raised by CALL at SP = 16 (R142, R192). Safe: the spec's own fault, taken. -/
  | stackOverflow
  /-- Raised by RETURN at SP = 0 (R140, R193). Safe: the spec's own fault, taken. -/
  | stackUnderflow
  /-- Raised by DRAW in edge mode SPILL for a set sprite bit whose pixel index `l` is 2048 or more (R125, R194). Safe: the
  spec's own fault, taken. -/
  | framebufferOutOfRange (l : Nat)
  deriving DecidableEq, Repr

/-- Why an instruction has no meaning. The core never refuses a word (R84, R210), and no arm of `exec` refuses one. -/
inductive Refusal where
  /-- Raised by an arm of `exec` whose instruction has no meaning yet; there is none. Safe. -/
  | notModelled (mnemonic : String)
  deriving DecidableEq, Repr

/-- The state of the core (R39), and at the end three fields of the model's own. -/
structure State where
  /-- V0 to VF (R20); VF is also the flag (R21). -/
  v : Vector Byte 16
  /-- I, the index register (R23). -/
  i : Word
  /-- pc, the address of the next instruction to fetch (R24). -/
  pc : Word
  /-- SP, the index of the next free slot, 0 to 16 (R28; log 9). -/
  sp : Fin 17
  /-- S[0] to S[15], the call stack (R27). -/
  stack : Vector Word 16
  /-- Memory (R31). -/
  mem : Memory
  /-- FB, the framebuffer (R32). -/
  fb : FrameBuffer
  /-- IR, the current instruction word; transient, not architectural between steps (R34; log 6). -/
  ir : Word
  /-- STATUS: bit 0 FAULTED, bit 1 STARTED, bit 2 FINSN_VALID, bits 7:3 reserved (R36). -/
  status : Byte
  /-- FCAUSE: bits 2:0 CAUSE, bits 7:3 reserved (R36). -/
  fcause : Byte
  /-- FPC: the address of the instruction whose step faulted (R36). -/
  fpc : Word
  /-- FADDR: the offending value (R36). -/
  faddr : Word
  /-- FINSN: the word of the faulting step (R36). -/
  finsn : Word
  /-- LDSTAT: bits 2:0 RESULT, bits 7:3 reserved (R36). -/
  ldstat : Byte
  /-- The MODEL's own field: the random byte supplied with the step under way (R6, R169; log 1). -/
  rnd : Byte
  /-- The MODEL's own field: how many random bytes accepted steps have taken (log 1). -/
  rndIndex : Nat
  /-- The MODEL's own field: the parameter DRAW_EDGE_MODE, which no transaction changes (R8, R128; log 3). -/
  edgeMode : EdgeMode
  deriving DecidableEq, Repr

/-- The machine right after reset (R39, R220). IR's value is the model's choice (log 6); the last three fields are the
model's own (log 1, 3). -/
def State.reset : State where
  v := Vector.replicate 16 0
  i := 0
  pc := 0x200
  sp := 0
  stack := Vector.replicate 16 0
  mem := []
  fb := Vector.replicate 32 0
  ir := 0
  status := 0
  fcause := 0
  fpc := 0
  faddr := 0
  finsn := 0
  ldstat := 0
  rnd := 0
  rndIndex := 0
  edgeMode := .spill

end Sys2Proof.Machine
end

