-- ==== Sys2Proof/Machine/Ops.lean ====
section
/-! DEFINITION. The named operations over the state: memory, registers, call stack, framebuffer, status fields, the
fetch, the advance of pc, and taking a fault (the one exception entry; there is no return from it, R196, R201). -/

namespace Sys2Proof.Machine

/-! ## Memory (R50 to R58) -/

/-- The byte an address holds; an unlisted address holds 0 (R31). -/
def Memory.read : Memory → Nat → Byte
  | [], _ => 0
  | (k, b) :: m, a => if k = a then b else Memory.read m a

/-- Put a byte at an address, keeping the canonical form: writing 0 removes the entry. -/
def Memory.write : Memory → Nat → Byte → Memory
  | [], a, b => if b = 0#8 then [] else [(a, b)]
  | (k, c) :: m, a, b =>
    if k < a then (k, c) :: Memory.write m a b
    else if k = a then (if b = 0#8 then m else (a, b) :: m)
    else (if b = 0#8 then (k, c) :: m else (a, b) :: (k, c) :: m)

/-- Every address of the list is at least `lo`, addresses rise strictly, no byte is 0, all below MEM_SIZE. -/
def Memory.wfFrom (lo : Nat) : Memory → Bool
  | [] => true
  | (k, b) :: m => lo ≤ k && k < Config.memSize && b != 0#8 && Memory.wfFrom (k + 1) m

/-- The canonical form of memory. -/
def Memory.wf (m : Memory) : Bool := Memory.wfFrom 0 m

/-- MemRead(addr, 1): the byte, or raise AddressOutOfRange at 4096 and above. The address is exact (R11, R56). -/
def State.readByte (a : Nat) (s : State) : Except Fault Byte :=
  if a < Config.memSize then .ok (Memory.read s.mem a) else .error (.addressOutOfRange a)

/-- MemWrite(addr, 1, v); only a load uses it (R11, R54). At 4096 and above nothing is written: such an access does not
happen (R56), and no load attempts one (R223; log 10). -/
def State.writeByte (a : Nat) (b : Byte) (s : State) : State :=
  if a < Config.memSize then { s with mem := Memory.write s.mem a b } else s

/-- Bytes at rising addresses, one byte at a time (R223). -/
def State.writeBytes (a : Nat) : List Byte → State → State
  | [], s => s
  | b :: bs, s => State.writeBytes (a + 1) bs (s.writeByte a b)

/-! ## Registers (R20 to R25) -/

/-- V[x]. -/
def State.getV (x : Nibble) (s : State) : Byte := s.v[x.toNat]'x.isLt

/-- V[x] <- b. -/
def State.setV (x : Nibble) (b : Byte) (s : State) : State := { s with v := s.v.set x.toNat b x.isLt }

/-- I <- w. -/
def State.setI (w : Word) (s : State) : State := { s with i := w }

/-- pc <- w. -/
def State.setPc (w : Word) (s : State) : State := { s with pc := w }

/-- The advance of pc by 2 that precedes every handler (R105). The sum is exact wherever a fetch completes. -/
def State.advancePc (s : State) : State := s.setPc (s.pc + 2)

/-! ## The call stack (R27 to R30) -/

/-- S[k]. -/
def State.slot (k : Fin 16) (s : State) : Word := s.stack[k.val]'k.isLt

/-- CALL's push: raise at SP = 16, else S[SP] <- w; SP <- SP + 1 (R142, R192). -/
def State.push (w : Word) (s : State) : Except Fault State :=
  if h : s.sp.val < 16 then
    .ok { s with stack := s.stack.set s.sp.val w h, sp := ⟨s.sp.val + 1, Nat.succ_lt_succ h⟩ }
  else .error .stackOverflow

/-- RETURN's pop: raise at SP = 0, else SP <- SP - 1, and the popped slot keeps its value (R140, R193, R30). The answer
is S[SP] after the decrement and the state. -/
def State.pop (s : State) : Except Fault (Word × State) :=
  if h : 0 < s.sp.val then
    .ok (s.slot ⟨s.sp.val - 1, by omega⟩, { s with sp := ⟨s.sp.val - 1, by omega⟩ })
  else .error .stackUnderflow

/-! ## The framebuffer (R32, R33) -/

/-- FB[l]; there is no pixel at 2048 and above (log 10). -/
def FrameBuffer.pixel (fb : FrameBuffer) (l : Nat) : Bool := (fb[l / 64]?.getD 0).getLsbD (l % 64)

/-- FB[l] <- FB[l] ^ 1 (R126). -/
def FrameBuffer.toggle (fb : FrameBuffer) (l : Nat) : FrameBuffer :=
  fb.setIfInBounds (l / 64) ((fb[l / 64]?.getD 0) ^^^ BitVec.twoPow 64 (l % 64))

/-- Every pixel off (R120). -/
def FrameBuffer.allOff : FrameBuffer := Vector.replicate 32 0

/-! ## The status registers (R36, R37) -/

/-- STATUS.FAULTED, bit 0. -/
def State.faulted (s : State) : Bool := s.status.getLsbD 0

/-- STATUS.STARTED, bit 1. -/
def State.started (s : State) : Bool := s.status.getLsbD 1

/-- STATUS.FINSN_VALID, bit 2. -/
def State.finsnValid (s : State) : Bool := s.status.getLsbD 2

/-- STATUS.STARTED <- 1, the other bits kept (R110). -/
def State.setStarted (s : State) : State := { s with status := s.status ||| 0x02 }

/-- The code of a fault in FCAUSE.CAUSE (R36, R190). -/
def Fault.code : Fault → Byte
  | .addressOutOfRange _ => 1
  | .stackOverflow => 2
  | .stackUnderflow => 3
  | .framebufferOutOfRange _ => 4

/-- The value of a fault in FADDR (R36, R190): the address, SP (16 or 0), or the pixel index. -/
def Fault.value : Fault → Nat
  | .addressOutOfRange a => a
  | .stackOverflow => 16
  | .stackUnderflow => 0
  | .framebufferOutOfRange l => l

/-- TAKING A FAULT (R195), on the state before the step's writes, so that all of them are discarded and pc is the address
of the faulting instruction. `insn` is IR for a fault after the fetch and none for a fault during it; FINSN_VALID is
written either way, and STATUS keeps its other bits. -/
def takeFault (f : Fault) (insn : Option Word) (s : State) : State :=
  { s with
    status := (s.status &&& 0xFB) ||| (if insn.isSome then 0x05 else 0x01)
    fcause := f.code
    fpc := s.pc
    faddr := BitVec.ofNat 16 f.value
    finsn := insn.getD 0 }

/-- Commit or abort (R109, R195): what a handler answers becomes the next state, or its fault is taken on the state `s`
from before the handler. -/
def commit (s : State) : Except Fault State → Host.Outcome State Fault Refusal
  | .ok t => .next t
  | .error f => .next (takeFault f (some s.ir) s)

/-! ## The fetch (R102 to R104) -/

/-- The word at pc: the byte at pc, then the byte at pc + 1; a raise names the first address out of range (R103). -/
def State.fetch (s : State) : Except Fault Word :=
  match s.readByte s.pc.toNat with
  | .error f => .error f
  | .ok hi =>
    match s.readByte (s.pc.toNat + 1) with
    | .error f => .error f
    | .ok lo => .ok (wordOfBytes hi lo)

/-- An accepted step: STARTED is set and its random byte is on the input port (R100, R110; log 1). -/
def State.accept (rnd : Byte) (s : State) : State :=
  { s.setStarted with rnd := rnd, rndIndex := s.rndIndex + 1 }

/-- Put the word of `w` where the next step fetches, and let that step run: the two bytes at pc, high byte first; a FAULTED
core is made not FAULTED, and a pc at which no fetch can complete becomes 0x200 (log 14). -/
def State.placeWord (nbits w : Nat) (s : State) : State :=
  let word : Word := BitVec.ofNat 16 (w % 2 ^ nbits)
  let at' : Word := if s.pc.toNat + 1 < Config.memSize then s.pc else 0x200
  let t : State := { s with pc := at', status := s.status &&& 0xFE }
  t.writeBytes at'.toNat [word.extractLsb' 8 8, word.extractLsb' 0 8]

end Sys2Proof.Machine
end

