-- ==== Sys2Proof/Machine/Operands.lean ====
section
/-! DEFINITION. Operand forms: the zero-extended address, the skip, the sprite byte and its pixels (R76, R10, R122 to R125). -/

namespace Sys2Proof.Machine

/-- zext_16(NNN) (R76). -/
def zextAddr (nnn : Addr) : Word := nnn.setWidth 16

/-- zext_16(V[0]) + zext_16(NNN), never masked to 12 bits (R147). -/
def offsetTarget (v0 : Byte) (nnn : Addr) : Word := v0.setWidth 16 + zextAddr nnn

/-- A conditional skip: pc <- pc + 2 when the condition holds (R25, R143 to R146). -/
def State.skipIf (c : Bool) (s : State) : State := if c then s.setPc (s.pc + 2) else s

/-- The column of a sprite's origin: V[X] mod 64 (R122). -/
def originX (x : Nibble) (s : State) : Nat := (s.getV x).toNat % 64

/-- The row of a sprite's origin: V[Y] mod 32 (R122). -/
def originY (y : Nibble) (s : State) : Nat := (s.getV y).toNat % 32

/-- The address of sprite row r, exact (R124). -/
def rowAddr (s : State) (r : Nat) : Nat := s.i.toNat + r

/-- The sprite pixel of column c, 0 to 7: bit 7 - c of the row's byte, so that bit 7 is the leftmost (R125). -/
def spriteBit (b : Byte) (c : Nat) : Bool := b.getLsbD (7 - c)

/-- Where a set sprite pixel at column `col` and row `row` lands: a pixel index, nowhere (CLIP), or a raise (SPILL beyond
the array) (R125, R127, R128). -/
def drawTarget (mode : EdgeMode) (col row : Nat) : Except Fault (Option Nat) :=
  match mode with
  | .spill =>
    if row * 64 + col < 2048 then .ok (some (row * 64 + col)) else .error (.framebufferOutOfRange (row * 64 + col))
  | .clip => if col < 64 ∧ row < 32 then .ok (some (row * 64 + col)) else .ok none
  | .wrap => .ok (some (row % 32 * 64 + col % 64))

end Sys2Proof.Machine
end

