-- ==== Sys2Proof/Machine/Flags.lean ====
section
/-! DEFINITION. The flag computations. VF is the only flag, an ordinary register that three instructions write as a side
effect, each the byte 0 or 1 (R21, R22). -/

namespace Sys2Proof.Machine

/-- VF's index (R7, R21). -/
def flagReg : Nibble := 0xF

/-- The byte a flag writes: 1 or 0 (R22). -/
def flagByte (c : Bool) : Byte := if c then 1 else 0

/-- VF <- flag. -/
def State.setFlag (c : Bool) (s : State) : State := s.setV flagReg (flagByte c)

/-- ADD_CARRY's flag: the exact 9-bit sum is over 255 (R166). -/
def carryOut (a b : Byte) : Bool := 255 < a.toNat + b.toNat

/-- SUB_BORROW's flag: strictly greater, unsigned (R167). -/
def strictlyGreater (a b : Byte) : Bool := b.toNat < a.toNat

end Sys2Proof.Machine
end

