-- ==== Sys2Proof/Machine/Alu.lean ====
section
/-! DEFINITION. The ALU: ADD_IMM, OR, AND, XOR, ADD_CARRY, SUB_BORROW (R161, R163 to R167, R170, R171). None can fault. A
later statement of a handler reads what an earlier one wrote (R11, D14). -/

namespace Sys2Proof.Machine

/-- 7XNN: V[X] <- (V[X] + NN) mod 256, no flag (R161). -/
def execAddImm (x : Nibble) (nn : Byte) (s : State) : Host.Outcome State Fault Refusal :=
  .next (s.advancePc.setV x (s.advancePc.getV x + nn))

/-- 8XY1: V[X] <- V[X] | V[Y] (R163). -/
def execOr (x y : Nibble) (s : State) : Host.Outcome State Fault Refusal :=
  .next (s.advancePc.setV x (s.advancePc.getV x ||| s.advancePc.getV y))

/-- 8XY2: V[X] <- V[X] & V[Y] (R164). -/
def execAnd (x y : Nibble) (s : State) : Host.Outcome State Fault Refusal :=
  .next (s.advancePc.setV x (s.advancePc.getV x &&& s.advancePc.getV y))

/-- 8XY3: V[X] <- V[X] ^ V[Y] (R165). -/
def execXor (x y : Nibble) (s : State) : Host.Outcome State Fault Refusal :=
  .next (s.advancePc.setV x (s.advancePc.getV x ^^^ s.advancePc.getV y))

/-- ADD_CARRY's handler: the sum is formed from both registers before VF is written, and V[X] is written last (R166). -/
def addCarry (x y : Nibble) (s : State) : State :=
  (s.setFlag (carryOut (s.getV x) (s.getV y))).setV x (BitVec.ofNat 8 ((s.getV x).toNat + (s.getV y).toNat))

/-- 8XY4 (R166). -/
def execAddCarry (x y : Nibble) (s : State) : Host.Outcome State Fault Refusal := .next (addCarry x y s.advancePc)

/-- SUB_BORROW's handler: VF is written first, and the subtraction reads both registers after that write (R167). -/
def subBorrow (x y : Nibble) (s : State) : State :=
  let t := s.setFlag (strictlyGreater (s.getV x) (s.getV y))
  t.setV x (t.getV x - t.getV y)

/-- 8XY5 (R167). -/
def execSubBorrow (x y : Nibble) (s : State) : Host.Outcome State Fault Refusal := .next (subBorrow x y s.advancePc)

end Sys2Proof.Machine
end

