-- ==== Sys2Proof/Machine/Control.lean ====
section
/-! DEFINITION. Control flow: RETURN, JUMP, CALL, the four skips, JUMP_OFFSET (R140 to R148). No target is checked when it
is written; a target out of range faults at the next fetch (R148). -/

namespace Sys2Proof.Machine

/-- RETURN's handler: pop, then pc from the popped slot (R140). -/
def returnHandler (s : State) : Except Fault State :=
  match s.pop with
  | .error f => .error f
  | .ok (w, t) => .ok (t.setPc w)

/-- 0--E (R140). -/
def execReturn (s : State) : Host.Outcome State Fault Refusal := commit s (returnHandler s.advancePc)

/-- 1NNN: pc <- zext_16(NNN) (R141). -/
def execJump (nnn : Addr) (s : State) : Host.Outcome State Fault Refusal := .next (s.advancePc.setPc (zextAddr nnn))

/-- CALL's handler: push pc, which is a + 2, then pc <- zext_16(NNN) (R142). -/
def callHandler (nnn : Addr) (s : State) : Except Fault State :=
  match s.push s.pc with
  | .error f => .error f
  | .ok t => .ok (t.setPc (zextAddr nnn))

/-- 2NNN (R142). -/
def execCall (nnn : Addr) (s : State) : Host.Outcome State Fault Refusal := commit s (callHandler nnn s.advancePc)

/-- 3XNN: skip if V[X] = NN (R143). -/
def execSkipEqImm (x : Nibble) (nn : Byte) (s : State) : Host.Outcome State Fault Refusal :=
  .next (s.advancePc.skipIf (s.getV x == nn))

/-- 4XNN: skip if V[X] differs from NN (R144). -/
def execSkipNeImm (x : Nibble) (nn : Byte) (s : State) : Host.Outcome State Fault Refusal :=
  .next (s.advancePc.skipIf (s.getV x != nn))

/-- 5XY-: skip if V[X] = V[Y]; bits 3:0 are ignored (R145). -/
def execSkipEqReg (x y : Nibble) (s : State) : Host.Outcome State Fault Refusal :=
  .next (s.advancePc.skipIf (s.getV x == s.getV y))

/-- 9XY-: skip if V[X] differs from V[Y]; bits 3:0 are ignored (R146). -/
def execSkipNeReg (x y : Nibble) (s : State) : Host.Outcome State Fault Refusal :=
  .next (s.advancePc.skipIf (s.getV x != s.getV y))

/-- BNNN: pc <- V[0] + NNN (R147). -/
def execJumpOffset (nnn : Addr) (s : State) : Host.Outcome State Fault Refusal :=
  .next (s.advancePc.setPc (offsetTarget (s.getV 0x0) nnn))

end Sys2Proof.Machine
end

