-- ==== Sys2Proof/Machine/Display.lean ====
section
/-! DEFINITION. CLEAR and the sprite-drawing engine of DRAW (R120 to R130). -/

namespace Sys2Proof.Machine

/-- 0--0: every pixel off (R120). -/
def execClear (s : State) : Host.Outcome State Fault Refusal :=
  .next { s.advancePc with fb := FrameBuffer.allOff }

/-- What the engine writes: the framebuffer, and whether a collision has happened, which is VF (R123, R126). -/
structure Canvas where
  fb : FrameBuffer
  collision : Bool
  deriving DecidableEq, Repr

/-- One set sprite pixel at its target: test for a collision, then toggle (R126). -/
def Canvas.plot (l : Nat) (c : Canvas) : Canvas := ⟨c.fb.toggle l, c.collision || c.fb.pixel l⟩

/-- The columns `cols` of one row, in that order: a clear bit does nothing and checks nothing; a set bit goes to its
target (R125, R127). -/
def drawColumns (mode : EdgeMode) (b : Byte) (xo row : Nat) : List Nat → Canvas → Except Fault Canvas
  | [], cv => .ok cv
  | c :: cs, cv =>
    if spriteBit b c then
      match drawTarget mode (xo + c) row with
      | .error f => .error f
      | .ok none => drawColumns mode b xo row cs cv
      | .ok (some l) => drawColumns mode b xo row cs (cv.plot l)
    else drawColumns mode b xo row cs cv

/-- The rows `rows` of a sprite, in that order: read the row's byte, which may raise, then its columns 0 to 7 (R124, R127). -/
def drawRows (s : State) (xo yo : Nat) : List Nat → Canvas → Except Fault Canvas
  | [], cv => .ok cv
  | r :: rs, cv =>
    match s.readByte (rowAddr s r) with
    | .error f => .error f
    | .ok b =>
      match drawColumns s.edgeMode b xo (yo + r) (List.range 8) cv with
      | .error f => .error f
      | .ok cv' => drawRows s xo yo rs cv'

/-- DRAW's handler: the origin from the registers before VF is cleared, then the rows, then the framebuffer and VF
(R122, R123, R127). -/
def drawHandler (x y : Nibble) (n : Nat) (s : State) : Except Fault State :=
  match drawRows s (originX x s) (originY y s) (List.range n) ⟨s.fb, false⟩ with
  | .error f => .error f
  | .ok cv => .ok { s.setFlag cv.collision with fb := cv.fb }

/-- DXYN (R121 to R130), in the edge mode of the machine (R128; log 3). -/
def execDraw (x y : Nibble) (n : Nat) (s : State) : Host.Outcome State Fault Refusal :=
  commit s (drawHandler x y n s.advancePc)

end Sys2Proof.Machine
end

