-- ==== Sys2Proof/Machine/Loads.lean ====
section
/-! DEFINITION. Register loads: LOAD_IMM, MOVE, LOAD_INDEX, RANDOM (R160, R162, R168, R169). None can fault. -/

namespace Sys2Proof.Machine

/-- 6XNN: V[X] <- NN (R160). -/
def execLoadImm (x : Nibble) (nn : Byte) (s : State) : Host.Outcome State Fault Refusal :=
  .next (s.advancePc.setV x nn)

/-- 8XY0: V[X] <- V[Y] (R162). -/
def execMove (x y : Nibble) (s : State) : Host.Outcome State Fault Refusal :=
  .next (s.advancePc.setV x (s.advancePc.getV y))

/-- ANNN: I <- zext_16(NNN) (R168). -/
def execLoadIndex (nnn : Addr) (s : State) : Host.Outcome State Fault Refusal :=
  .next (s.advancePc.setI (zextAddr nnn))

/-- CXNN: V[X] <- rnd & NN, rnd the byte supplied with this step (R169; log 1). -/
def execRandom (x : Nibble) (nn : Byte) (s : State) : Host.Outcome State Fault Refusal :=
  .next (s.advancePc.setV x (s.rnd &&& nn))

end Sys2Proof.Machine
end

