-- ==== Sys2Proof/Machine/Nop.lean ====
section
/-! DEFINITION. NOP, the handler of every unmapped word: it writes nothing, and the step leaves pc at a + 2 (R108, R84,
C8). One definition for each row of the opcode table, over the one shared operation `unmapped`. -/

namespace Sys2Proof.Machine

/-- The net effect of a step that runs an unmapped word: pc <- a + 2 and nothing else (R105, R108). -/
def unmapped (s : State) : Host.Outcome State Fault Refusal := .next s.advancePc

/-- 0--1 (R79). -/
def execNop01 (s : State) : Host.Outcome State Fault Refusal := unmapped s

/-- 0--2 (R79). -/
def execNop02 (s : State) : Host.Outcome State Fault Refusal := unmapped s

/-- 0--3 (R79). -/
def execNop03 (s : State) : Host.Outcome State Fault Refusal := unmapped s

/-- 0--4 (R79). -/
def execNop04 (s : State) : Host.Outcome State Fault Refusal := unmapped s

/-- 0--5 (R79). -/
def execNop05 (s : State) : Host.Outcome State Fault Refusal := unmapped s

/-- 0--6 (R79). -/
def execNop06 (s : State) : Host.Outcome State Fault Refusal := unmapped s

/-- 0--7 (R79). -/
def execNop07 (s : State) : Host.Outcome State Fault Refusal := unmapped s

/-- 0--8 (R79). -/
def execNop08 (s : State) : Host.Outcome State Fault Refusal := unmapped s

/-- 0--9 (R79). -/
def execNop09 (s : State) : Host.Outcome State Fault Refusal := unmapped s

/-- 0--A (R79). -/
def execNop0A (s : State) : Host.Outcome State Fault Refusal := unmapped s

/-- 0--B (R79). -/
def execNop0B (s : State) : Host.Outcome State Fault Refusal := unmapped s

/-- 0--C (R79). -/
def execNop0C (s : State) : Host.Outcome State Fault Refusal := unmapped s

/-- 0--D (R79). -/
def execNop0D (s : State) : Host.Outcome State Fault Refusal := unmapped s

/-- 0--F (R79). -/
def execNop0F (s : State) : Host.Outcome State Fault Refusal := unmapped s

/-- 8XY6 (R80). -/
def execNop86 (s : State) : Host.Outcome State Fault Refusal := unmapped s

/-- 8XY7 (R80). -/
def execNop87 (s : State) : Host.Outcome State Fault Refusal := unmapped s

/-- 8XY8 (R80). -/
def execNop88 (s : State) : Host.Outcome State Fault Refusal := unmapped s

/-- 8XY9 (R80). -/
def execNop89 (s : State) : Host.Outcome State Fault Refusal := unmapped s

/-- 8XYA (R80). -/
def execNop8A (s : State) : Host.Outcome State Fault Refusal := unmapped s

/-- 8XYB (R80). -/
def execNop8B (s : State) : Host.Outcome State Fault Refusal := unmapped s

/-- 8XYC (R80). -/
def execNop8C (s : State) : Host.Outcome State Fault Refusal := unmapped s

/-- 8XYD (R80). -/
def execNop8D (s : State) : Host.Outcome State Fault Refusal := unmapped s

/-- 8XYE (R80). -/
def execNop8E (s : State) : Host.Outcome State Fault Refusal := unmapped s

/-- 8XYF (R80). -/
def execNop8F (s : State) : Host.Outcome State Fault Refusal := unmapped s

/-- E--- (R82). -/
def execNopE (s : State) : Host.Outcome State Fault Refusal := unmapped s

/-- F--- (R82). -/
def execNopF (s : State) : Host.Outcome State Fault Refusal := unmapped s

end Sys2Proof.Machine
end

