-- ==== Sys2Proof/Machine/Dispatch.lean ====
section
/-! DEFINITION. The dispatch of R106: one arm per row of the opcode table, one meaning per arm. -/

namespace Sys2Proof.Machine

/-- The instruction `i` on the state `s`, where `s` is the state right after the fetch: s.pc is the address a of the
instruction and s.ir its word. The meaning itself advances pc, runs the handler, and commits it or takes its fault. -/
def exec (i : Instr) (s : State) : Host.Outcome State Fault Refusal :=
  match i with
  | .clear _ => Sys2Proof.Machine.execClear s
  | .ret _ => Sys2Proof.Machine.execReturn s
  | .nop01 _ => Sys2Proof.Machine.execNop01 s
  | .nop02 _ => Sys2Proof.Machine.execNop02 s
  | .nop03 _ => Sys2Proof.Machine.execNop03 s
  | .nop04 _ => Sys2Proof.Machine.execNop04 s
  | .nop05 _ => Sys2Proof.Machine.execNop05 s
  | .nop06 _ => Sys2Proof.Machine.execNop06 s
  | .nop07 _ => Sys2Proof.Machine.execNop07 s
  | .nop08 _ => Sys2Proof.Machine.execNop08 s
  | .nop09 _ => Sys2Proof.Machine.execNop09 s
  | .nop0A _ => Sys2Proof.Machine.execNop0A s
  | .nop0B _ => Sys2Proof.Machine.execNop0B s
  | .nop0C _ => Sys2Proof.Machine.execNop0C s
  | .nop0D _ => Sys2Proof.Machine.execNop0D s
  | .nop0F _ => Sys2Proof.Machine.execNop0F s
  | .jump nnn => Sys2Proof.Machine.execJump nnn s
  | .call nnn => Sys2Proof.Machine.execCall nnn s
  | .skipEqImm x nn => Sys2Proof.Machine.execSkipEqImm x nn s
  | .skipNeImm x nn => Sys2Proof.Machine.execSkipNeImm x nn s
  | .skipEqReg x y _ => Sys2Proof.Machine.execSkipEqReg x y s
  | .loadImm x nn => Sys2Proof.Machine.execLoadImm x nn s
  | .addImm x nn => Sys2Proof.Machine.execAddImm x nn s
  | .move x y => Sys2Proof.Machine.execMove x y s
  | .or x y => Sys2Proof.Machine.execOr x y s
  | .and x y => Sys2Proof.Machine.execAnd x y s
  | .xor x y => Sys2Proof.Machine.execXor x y s
  | .addCarry x y => Sys2Proof.Machine.execAddCarry x y s
  | .subBorrow x y => Sys2Proof.Machine.execSubBorrow x y s
  | .nop86 _ _ => Sys2Proof.Machine.execNop86 s
  | .nop87 _ _ => Sys2Proof.Machine.execNop87 s
  | .nop88 _ _ => Sys2Proof.Machine.execNop88 s
  | .nop89 _ _ => Sys2Proof.Machine.execNop89 s
  | .nop8A _ _ => Sys2Proof.Machine.execNop8A s
  | .nop8B _ _ => Sys2Proof.Machine.execNop8B s
  | .nop8C _ _ => Sys2Proof.Machine.execNop8C s
  | .nop8D _ _ => Sys2Proof.Machine.execNop8D s
  | .nop8E _ _ => Sys2Proof.Machine.execNop8E s
  | .nop8F _ _ => Sys2Proof.Machine.execNop8F s
  | .skipNeReg x y _ => Sys2Proof.Machine.execSkipNeReg x y s
  | .loadIndex nnn => Sys2Proof.Machine.execLoadIndex nnn s
  | .jumpOffset nnn => Sys2Proof.Machine.execJumpOffset nnn s
  | .random x nn => Sys2Proof.Machine.execRandom x nn s
  | .draw x y n => Sys2Proof.Machine.execDraw x y n s
  | .nopE _ => Sys2Proof.Machine.execNopE s
  | .nopF _ => Sys2Proof.Machine.execNopF s

end Sys2Proof.Machine
end

