-- ==== Sys2Proof/Machine/Port.lean ====
section
/-! DEFINITION. The core's interface to its host: the transactions `step(rnd)`, `reset` and `load`, and the outputs
`present`, `status` and `trace` (R6). -/

namespace Sys2Proof.Machine

/-! ## step (R100) -/

/-- `step(rnd)`. A FAULTED core ignores it and nothing changes (R101). Otherwise the step is accepted; a fault of the fetch
is taken with no instruction word, and else IR is written and the instruction at pc runs (R100 to R106). -/
def stepWith (rnd : Byte) (s : State) : Host.Outcome State Fault Refusal :=
  if s.faulted then .next s
  else
    match (s.accept rnd).fetch with
    | .error f => .next (takeFault f none (s.accept rnd))
    | .ok w => exec (decodeWord w) { s.accept rnd with ir := w }

/-- The step with the byte the host supplies next, a free value (D10; log 1). -/
def stepNext (s : State) : Host.Outcome State Fault Refusal := stepWith (Config.rndInput s.rndIndex) s

/-- What a step returns to the host (R100). -/
inductive Reply where
  | done | fault | ignored
  deriving DecidableEq, Repr

/-- The reply of a step from `s` that left `t`: IGNORED when the core was FAULTED already, FAULT when the step faulted,
else DONE (R100, R101, R195). -/
def replyOf (s t : State) : Reply := if s.faulted then .ignored else if t.faulted then .fault else .done

/-! ## reset (R220, R221) -/

/-- The `reset` transaction. The parameter DRAW_EDGE_MODE is no state of the core, and the host's random bytes do not
start again (log 1, 3). -/
def hostReset (s : State) : State := { State.reset with edgeMode := s.edgeMode, rndIndex := s.rndIndex }

/-! ## load (R223 to R225) -/

/-- LDSTAT.RESULT <- code (R36, R37). -/
def State.setLdstat (code : Byte) (s : State) : State := { s with ldstat := code }

/-- The `load` transaction: accepted before the first step for at most 3584 bytes; refused with no byte written otherwise.
When a ROM is both too long and after the start, R224 and R225 both apply, and which code is written is free (log 12). -/
def hostLoad (rom : List Byte) (s : State) : State :=
  if s.started then
    if Config.maxRom < rom.length then s.setLdstat (if Config.lateOversize rom.length then 2 else 3)
    else s.setLdstat 3
  else if Config.maxRom < rom.length then s.setLdstat 2
  else (s.writeBytes Config.progBase rom).setLdstat 1

/-! ## All transactions that can change state (R6) -/

/-- A transaction of the host (R6). `present`, `status` and `trace` change nothing and are functions of the state. -/
inductive Transaction where
  | reset
  | load (rom : List Byte)
  | step (rnd : Byte)
  deriving DecidableEq, Repr

/-- The state a transaction leaves. -/
def transact : Transaction → State → Host.Outcome State Fault Refusal
  | .reset, s => .next (hostReset s)
  | .load rom, s => .next (hostLoad rom s)
  | .step rnd, s => stepWith rnd s

/-! ## present (R33, R107) -/

/-- What the present port carries: the 2048 pixels in row-major order and the pitch in bytes (R6, R107). -/
structure Frame where
  pixels : List (BitVec 32)
  pitch : Nat
  deriving DecidableEq, Repr

/-- The frame of a framebuffer with `on` for a lit pixel and 0 for one that is off (R33). -/
def frameWith (on : BitVec 32) (fb : FrameBuffer) : Frame :=
  ⟨(List.range Config.fbPixels).map fun l => if fb.pixel l then on else 0, Config.pitch⟩

/-- The frame with the machine's PIXEL_ON. -/
def present (s : State) : Frame := frameWith Config.pixelOn s.fb

/-- What a step from `s` that left `t` presents: the frame after DONE, nothing after FAULT or IGNORED (R107). -/
def presented (s t : State) : Option Frame := if replyOf s t = .done then some (present t) else none

/-! ## status (R36) -/

/-- The six status registers, as the host reads them. -/
structure StatusView where
  status : Byte
  fcause : Byte
  fpc : Word
  faddr : Word
  finsn : Word
  ldstat : Byte
  deriving DecidableEq, Repr

/-- The status port: a read-only view. -/
def statusPort (s : State) : StatusView := ⟨s.status, s.fcause, s.fpc, s.faddr, s.finsn, s.ldstat⟩

/-! ## trace (R211, optional) -/

/-- The event a step from `s` may emit: when it runs NOP, the word and its address (R211; log 13). -/
def traceEvent (s : State) : Option (Word × Word) :=
  if s.faulted then none
  else
    match s.fetch with
    | .error _ => none
    | .ok w => if (decodeWord w).mnemonic = .nop then some (w, s.pc) else none

end Sys2Proof.Machine
end

