-- ==== Sys2Proof/Machine/Step.lean ====
section
/-! DEFINITION. The machine's step: one `step` transaction of the host (R100). -/

namespace Sys2Proof.Machine

/-- One step, with the random byte the host supplies next (log 1). A FAULT and an IGNORED step are next states too (log 2). -/
def step (s : State) : Host.Outcome State Fault Refusal := stepNext s

/-- The state with the opcode-table word `w` where the next step fetches (log 14). -/
def State.withFetchWord (s : State) (nbits w : Nat) : State := s.placeWord nbits w

end Sys2Proof.Machine
end

