-- ==== Sys2Proof/Safety.lean ====
section
/-! DEFINITION. The terms claims are stated in: a running core, the conditions under which an instruction completes, what a
sprite covers, the invariant of every run, and which states a program or the host can tell apart. -/

namespace Sys2Proof.Machine

/-! ## Conditions under which a step completes -/

/-- The core accepts a step (R101). -/
def Running (s : State) : Prop := s.faulted = false

/-- Both bytes of the instruction are in memory (R103). -/
def FetchOk (s : State) : Prop := s.pc.toNat < 0xFFF

/-- The byte of sprite row r. -/
def spriteByte (s : State) (r : Nat) : Byte := Memory.read s.mem (rowAddr s r)

/-- Row r of a sprite lies beyond memory: its read raises (R124). -/
def RowOut (s : State) (r : Nat) : Prop := 4096 ≤ rowAddr s r

/-- In SPILL, the set sprite bit (r, c) of a sprite drawn from V[x] and V[y] has its index beyond the array: it raises (R125). -/
def PixelOut (s : State) (x y : Nibble) (r c : Nat) : Prop :=
  s.edgeMode = .spill ∧ spriteBit (spriteByte s r) c = true ∧ 2048 ≤ (originY y s + r) * 64 + (originX x s + c)

/-- DRAW with n rows completes: no row read and no set bit raises (R121, R127). -/
def DrawOk (s : State) (x y : Nibble) (n : Nat) : Prop :=
  ∀ r < n, ¬ RowOut s r ∧ ∀ c < 8, ¬ PixelOut s x y r c

/-- The sprite of n rows at V[x], V[y] covers pixel l: some set bit has l as its target (R125, R127). -/
def Covers (s : State) (x y : Nibble) (n l : Nat) : Prop :=
  ∃ r < n, ∃ c < 8, spriteBit (spriteByte s r) c = true ∧
    drawTarget s.edgeMode (originX x s + c) (originY y s + r) = .ok (some l)

/-! ## R125 and R127 in their own terms, apart from the functions the engine runs -/

/-- Column c of sprite row r is set: b & (0x80 >> c) != 0, for b the byte at I + r (R124, R125). -/
def SpriteSet (s : State) (r c : Nat) : Prop := Memory.read s.mem (s.i.toNat + r) &&& ((0x80 : Byte) >>> c) ≠ 0

/-- L is where the pixel at column `col` and row `row` is plotted, by R127's formula for each mode. -/
def PlotsAt (mode : EdgeMode) (col row l : Nat) : Prop :=
  match mode with
  | .spill => l = row * 64 + col ∧ l < 2048
  | .clip => l = row * 64 + col ∧ col < 64 ∧ row < 32
  | .wrap => l = row % 32 * 64 + col % 64

/-- DXYN plots pixel L: some set bit (r, c) does, from the origin V[X] mod 64, V[Y] mod 32 (R122, R127). -/
def DrawPlots (s : State) (x y : Nibble) (n l : Nat) : Prop :=
  ∃ r < n, ∃ c < 8, SpriteSet s r c ∧
    PlotsAt s.edgeMode ((s.getV x).toNat % 64 + c) ((s.getV y).toNat % 32 + r) l

/-- The instruction takes a fault on this state after its fetch: exactly R190's conditions. -/
def HandlerFaults : Instr → State → Prop
  | .call _, s => s.sp = 16
  | .ret _, s => s.sp = 0
  | .draw x y n, s => ¬ DrawOk s x y n
  | _, _ => False

/-! ## The invariant of every run -/

/-- What every reachable state satisfies: memory is canonical; I, pc and every stack slot keep the ranges of R23, R26 and
R30; reserved bits read 0 and codes are legal (R36); the fault record is there exactly while FAULTED, with FPC = pc and
STARTED set (R36, R37, R195). -/
structure Inv (s : State) : Prop where
  memory : Memory.wf s.mem = true
  index : s.i.toNat ≤ 0xFFF
  counter : s.pc.toNat ≤ 0x10FE
  slots : ∀ k : Fin 16, (s.slot k).toNat ≤ 0x1000
  reserved : s.status &&& 0xF8 = 0
  cause : s.fcause.toNat ≤ 4
  result : s.ldstat.toNat ≤ 3
  fault : s.faulted = true → s.fcause ≠ 0 ∧ s.fpc = s.pc ∧ s.started = true ∧ (s.finsnValid = false → s.finsn = 0)
  noFault : s.faulted = false → s.fcause = 0 ∧ s.fpc = 0 ∧ s.faddr = 0 ∧ s.finsn = 0 ∧ s.finsnValid = false

/-! ## States that look alike -/

/-- The core's own state: IR, which is not architectural between steps (R34), and the host's random bytes, which are no
state of the core (R35), are blanked. -/
def State.architectural (s : State) : State := { s with ir := 0, rnd := 0, rndIndex := 0 }

/-- Equal but for stale call-stack slots, those at SP and above (R30). -/
def SameButStale (s t : State) : Prop :=
  { s with stack := t.stack } = t ∧ ∀ k : Fin 16, k.val < s.sp.val → s.slot k = t.slot k

/-- The same outcome but for stale slots. -/
def SameOutcomeButStale : Host.Outcome State Fault Refusal → Host.Outcome State Fault Refusal → Prop
  | .next s, .next t => SameButStale s t
  | _, _ => False

/-! ## The access matrix (R38) -/

/-- The instruction may write V[k]: k is its destination, or VF for the three instructions of R22. -/
def writesV (k : Nibble) : Instr → Prop
  | .loadImm x _ | .addImm x _ | .move x _ | .or x _ | .and x _ | .xor x _ | .random x _ => k = x
  | .addCarry x _ | .subBorrow x _ => k = x ∨ k = flagReg
  | .draw _ _ _ => k = flagReg
  | _ => False

/-- The instruction writes I: only LOAD_INDEX (R23). -/
def writesI : Instr → Prop
  | .loadIndex _ => True
  | _ => False

/-- The instruction writes SP: only CALL and RETURN (R28). -/
def writesSp : Instr → Prop
  | .call _ | .ret _ => True
  | _ => False

/-- The instruction writes a call-stack slot: only CALL (R27). -/
def writesStack : Instr → Prop
  | .call _ => True
  | _ => False

/-- The instruction writes the framebuffer: only CLEAR and DRAW (R32). -/
def writesFb : Instr → Prop
  | .clear _ | .draw _ _ _ => True
  | _ => False

/-- From `s` to `t` the pc advanced by 2, no register outside `p` changed, and nothing else changed at all: the frame of an
instruction that writes registers only. -/
def OnlyRegisters (p : Nibble → Prop) (s t : State) : Prop :=
  t.pc = s.pc + 2 ∧ (∀ k, ¬ p k → t.getV k = s.getV k) ∧ { t with v := s.v, pc := s.pc } = s

/-- The same, for an instruction that also writes the framebuffer. -/
def OnlyRegistersAndPixels (p : Nibble → Prop) (s t : State) : Prop :=
  t.pc = s.pc + 2 ∧ (∀ k, ¬ p k → t.getV k = s.getV k) ∧ { t with v := s.v, pc := s.pc, fb := s.fb } = s

/-- The state the core's own fields keep when a fault is taken: all but the status registers (R109). -/
def SameButStatus (s t : State) : Prop :=
  { t with status := s.status, fcause := s.fcause, fpc := s.fpc, faddr := s.faddr, finsn := s.finsn } = s

/-- The table of R25: pc after an instruction that completes, from the state before it. -/
def nextPc : Instr → State → Word
  | .jump nnn, _ | .call nnn, _ => nnn.setWidth 16
  | .ret _, s => if h : 0 < s.sp.val then s.slot ⟨s.sp.val - 1, by omega⟩ else s.pc
  | .jumpOffset nnn, s => (s.getV 0x0).setWidth 16 + nnn.setWidth 16
  | .skipEqImm x nn, s => if s.getV x = nn then s.pc + 4 else s.pc + 2
  | .skipNeImm x nn, s => if s.getV x ≠ nn then s.pc + 4 else s.pc + 2
  | .skipEqReg x y _, s => if s.getV x = s.getV y then s.pc + 4 else s.pc + 2
  | .skipNeReg x y _, s => if s.getV x ≠ s.getV y then s.pc + 4 else s.pc + 2
  | _, s => s.pc + 2

/-- The instruction executes NOP (R83). -/
def isNop (i : Instr) : Prop := i.mnemonic = .nop

end Sys2Proof.Machine
end

