-- ==== Sys2Proof/Certificates/Slice0/Obligations.lean ====
section
/-! DEFINITION. The statements for the provers. Each is about the machine, not about a program; each says which rule of
spec/ it formalises. An `exec` is on the state right after the fetch (s.pc is the address a of the instruction), so that a
result equation is also the instruction's completion and its frame. -/

open Sys2Proof Sys2Proof.Machine

/-! ## Encoding -/

/-- Decoding the bytes of a well-formed instruction gives it back and leaves the rest (R53, R76, R77, R83). -/
def Obligations.DecodeEncodeRoundTrip : Prop :=
  ∀ (i : Instr) (rest : List Byte), i.WellFormed = true → decode (encodeBytes i ++ rest) = .ok (i, rest)

/-- Every word decodes to a well-formed instruction whose encoding is that word: no bit is dropped (R76, R85). -/
def Obligations.EncodeDecodeRoundTrip : Prop :=
  ∀ w : Word, (decodeWord w).WellFormed = true ∧ encode (decodeWord w) = w

/-- R85 (an inference of the spec from R78 to R83): every word selects exactly one row of the opcode map, and the
dispatch gives that row's instruction. -/
def Obligations.EveryWordSelectsOneRow : Prop :=
  ∀ w : Word, ∃ r, opcodeMap.filter (fun r => r.selects w) = [r] ∧ (decodeWord w).mnemonic = r.mnemonic

/-- Words written out from the encodings of R83 and R87 decode to the instructions they stand for: one of every
format. -/
def Obligations.SpecWordsDecode : Prop :=
  decodeWord 0x00E0 = .clear 0x0E ∧ decodeWord 0x00EE = .ret 0x0E ∧ decodeWord 0x1ABC = .jump 0xABC ∧
  decodeWord 0x3A3C = .skipEqImm 0xA 0x3C ∧ decodeWord 0x5120 = .skipEqReg 0x1 0x2 0x0 ∧
  decodeWord 0x8124 = .addCarry 0x1 0x2 ∧ decodeWord 0xD125 = .draw 0x1 0x2 5 ∧ decodeWord 0xF000 = .nopF 0x000

/-- R79, R81: the ignored bits select nothing, and the canonical form of an instruction has the same effect (R89). -/
def Obligations.IgnoredBitsHaveNoEffect : Prop :=
  (∀ mid, decodeWord (wordZ 0x0 mid 0x0) = .clear mid ∧ decodeWord (wordZ 0x0 mid 0xE) = .ret mid) ∧
  (∀ x y low, decodeWord (wordXYN 0x5 x y low) = .skipEqReg x y low ∧
    decodeWord (wordXYN 0x9 x y low) = .skipNeReg x y low) ∧
  ∀ i s, exec i.canonical s = exec i s

/-- R79, R80, R82: each word of these rows is unmapped; R84, R108: it executes NOP, which only advances pc. That low
nibble 0xF of families 0 and 8 is among them is the spec's decision D12 (log 5), and that bits 11:4 of family 0 are
ignored its decision D13. That no other word is a NOP follows from EveryWordSelectsOneRow. -/
def Obligations.UnmappedWordsExecuteNop : Prop :=
  ∀ (w : Word) (s : State),
    (fieldF w = 0x0 ∧ fieldN w ≠ 0x0 ∧ fieldN w ≠ 0xE ∨ fieldF w = 0x8 ∧ 6 ≤ (fieldN w).toNat ∨
      fieldF w = 0xE ∨ fieldF w = 0xF) →
    isNop (decodeWord w) ∧ exec (decodeWord w) s = .next { s with pc := s.pc + 2 }

/-! ## The step -/

/-- A step runs the decoded instruction: on a running core whose two bytes at pc are in memory and decode to i, the
step is exec of i on the state with STARTED set, IR the word, and the random byte on the input port (R100, R102, R104,
R106). The random byte is a free value (log 1): the statement holds for every byte, and `step` is the case of the next
one. -/
def Obligations.StepRunsDecodedInstruction : Prop :=
  (∀ s, step s = stepWith (Config.rndInput s.rndIndex) s) ∧
  ∀ (s : State) (rnd hi lo : Byte) (i : Instr), Running s → FetchOk s →
    Memory.read s.mem s.pc.toNat = hi → Memory.read s.mem (s.pc.toNat + 1) = lo → decode [hi, lo] = .ok (i, []) →
    stepWith rnd s =
      exec i { s with status := s.status ||| 0x02, ir := hi ++ lo, rnd := rnd, rndIndex := s.rndIndex + 1 }

/-- R103 (with the spec's decision D31): a fetch at 0xFFF or above faults, FADDR is the first address out of range, no
word was formed; below it never does. -/
def Obligations.FetchFaultsAtEndOfMemory : Prop :=
  ∀ (s : State) (rnd : Byte), Running s →
    (0xFFF ≤ s.pc.toNat → ∃ t, stepWith rnd s = .next t ∧ t.faulted = true ∧ t.fcause = 1 ∧ t.fpc = s.pc ∧
      t.faddr = (if 0x1000 ≤ s.pc.toNat then s.pc else s.pc + 1) ∧ t.finsn = 0 ∧ t.finsnValid = false) ∧
    (s.pc.toNat ≤ 0xFFE → ∃ w, s.fetch = .ok w)

/-- R101, R196, R37 (with the spec's decision D21): a step of a FAULTED core changes nothing, and every transaction
but reset leaves it FAULTED with its fault record as it was. -/
def Obligations.FaultedUntilReset : Prop :=
  ∀ s : State, s.faulted = true →
    (∀ rnd, stepWith rnd s = .next s) ∧
    (∀ tx, tx ≠ .reset → ∃ t, transact tx s = .next t ∧ t.status = s.status ∧ t.fcause = s.fcause ∧ t.fpc = s.fpc ∧
      t.faddr = s.faddr ∧ t.finsn = s.finsn) ∧
    Running (hostReset s)

/-- R84, R106, R210: no word is refused and no step hangs, in any state: every instruction and every transaction
answers a next state. That a fault is among these next states is the model's form of it (log 2, DEDUCED): the spec's
core stops on a fault (R196, R201), which here is the FAULTED state, in which every step is IGNORED and changes
nothing (FaultedUntilReset). -/
def Obligations.EveryTransactionAnswers : Prop :=
  (∀ i s, ∃ t, exec i s = .next t) ∧ ∀ tx s, ∃ t, transact tx s = .next t

/-- R110, R225 (with the spec's decision D16): an accepted step sets STARTED, DONE or FAULT; it stays 1 until reset;
while it is 1 a load writes no byte. -/
def Obligations.StartedUntilReset : Prop :=
  (∀ (s t : State) (rnd : Byte), Running s → stepWith rnd s = .next t → t.started = true) ∧
  (∀ (s t : State) (tx : Transaction), s.started = true → tx ≠ .reset → transact tx s = .next t → t.started = true) ∧
  (∀ s, (hostReset s).started = false) ∧
  (∀ (s : State) (rom : List Byte), s.started = true → (hostLoad rom s).mem = s.mem ∧ (hostLoad rom s).ldstat ≠ 1)

/-- R109 (the spec's decision D3): a step that faults commits nothing; only STARTED and the fault fields change. The
transient IR and the model's own fields for the random byte (R34, R35; log 1, 6) are not the core's architectural
state. -/
def Obligations.FaultedStepCommitsNothing : Prop :=
  ∀ (s t : State) (rnd : Byte), Running s → stepWith rnd s = .next t → t.faulted = true →
    SameButStatus s.architectural t.architectural ∧ t.started = true ∧ t.fcause ≠ 0 ∧ t.fpc = s.pc ∧
    (t.finsnValid = true → s.fetch = .ok t.finsn)

/-- R195 (the spec's decisions D3 and D4): the fault entry. A handler's fault on a running core discards its writes,
records the fault, replies FAULT and presents nothing. What R190 and R36 say is recorded, fault by fault:
AddressOutOfRange(a) code 1 and a, StackOverflow 2 and 16, StackUnderflow 3 and 0, FramebufferOutOfRange(L) 4 and L.
FADDR has 16 bits; every a and L that can arise fits (log 10). -/
def Obligations.FaultEntryRecords : Prop :=
  ∀ (s : State) (f : Fault), Running s → ∃ t, commit s (.error f) = .next t ∧ SameButStatus s t ∧ t.faulted = true ∧
    t.started = s.started ∧ t.fpc = s.pc ∧ t.finsn = s.ir ∧ t.finsnValid = true ∧ replyOf s t = .fault ∧
    presented s t = none ∧
    (∀ a, f = .addressOutOfRange a → t.fcause = 1 ∧ t.faddr = BitVec.ofNat 16 a) ∧
    (f = .stackOverflow → t.fcause = 2 ∧ t.faddr = 16) ∧
    (f = .stackUnderflow → t.fcause = 3 ∧ t.faddr = 0) ∧
    (∀ l, f = .framebufferOutOfRange l → t.fcause = 4 ∧ t.faddr = BitVec.ofNat 16 l)

/-- R190 to R194 (with the spec's decisions D2, D4, D6): after the fetch, CALL at SP = 16, RETURN at SP = 0 and a DRAW
that reads or plots out of range fault, and no other instruction and no other condition does. -/
def Obligations.OnlyListedConditionsFault : Prop :=
  ∀ (i : Instr) (s : State), Running s → ∃ t, exec i s = .next t ∧ (t.faulted = true ↔ HandlerFaults i s)

/-! ## Invariants -/

/-- The invariant holds at reset. -/
def Obligations.ResetSatisfiesInvariant : Prop := Inv State.reset

/-- Every step keeps the invariant: canonical memory, the ranges of I, pc and the stack slots, reserved bits 0, legal
codes, and a fault record exactly while FAULTED (R23, R26, R30, R36, R37). -/
def Obligations.StepKeepsInvariant : Prop :=
  ∀ s t : State, Inv s → step s = .next t → Inv t

/-- Loads and resets keep it too, and so does a step with any random byte. -/
def Obligations.TransactionKeepsInvariant : Prop :=
  ∀ (tx : Transaction) (s t : State), Inv s → transact tx s = .next t → Inv t

/-- R58 (an inference of the spec from R54 and R225): no instruction writes memory, so once STARTED, memory is
constant until reset. -/
def Obligations.MemoryConstantAfterStart : Prop :=
  (∀ (i : Instr) (s t : State), exec i s = .next t → t.mem = s.mem) ∧
  ∀ (tx : Transaction) (s t : State), s.started = true → tx ≠ .reset → transact tx s = .next t → t.mem = s.mem

/-! ## Reset and load -/

/-- R220 with R39 (with the spec's decisions D7, D8, D26): what reset leaves, whatever the state before it. IR has no
reset value in the spec and none here. -/
def Obligations.ResetLeavesSpecValues : Prop :=
  ∀ s : State, (∀ k, (hostReset s).getV k = 0) ∧ (hostReset s).i = 0 ∧ (hostReset s).pc = 0x200 ∧ (hostReset s).sp = 0 ∧
    (∀ k, (hostReset s).slot k = 0) ∧ (∀ a, Memory.read (hostReset s).mem a = 0) ∧
    (∀ l, (hostReset s).fb.pixel l = false) ∧ statusPort (hostReset s) = ⟨0, 0, 0, 0, 0, 0⟩ ∧
    Running (hostReset s) ∧ (hostReset s).started = false

/-- R223 (with the spec's decision D16): an accepted load puts the ROM's bytes at 0x200, keeps every other byte, sets
LDSTAT to OK, and changes nothing else. -/
def Obligations.LoadCopiesRom : Prop :=
  ∀ (s : State) (rom : List Byte), Memory.wf s.mem = true → s.started = false → rom.length ≤ 3584 →
    (∀ k (h : k < rom.length), Memory.read (hostLoad rom s).mem (0x200 + k) = rom[k]) ∧
    (∀ a, a < 0x200 ∨ 0x200 + rom.length ≤ a → Memory.read (hostLoad rom s).mem a = Memory.read s.mem a) ∧
    hostLoad rom s = { s with mem := (hostLoad rom s).mem, ldstat := 1 }

/-- R224, R225 (the spec's decision D16): a refused load writes no byte and sets only LDSTAT, to ROM_TOO_LARGE or
REFUSED_STARTED. Where both rules apply, which of the two codes is free (log 12). -/
def Obligations.RefusedLoadWritesNothing : Prop :=
  ∀ (s : State) (rom : List Byte),
    (s.started = false → 3584 < rom.length → hostLoad rom s = { s with ldstat := 2 }) ∧
    (s.started = true → rom.length ≤ 3584 → hostLoad rom s = { s with ldstat := 3 }) ∧
    (s.started = true → 3584 < rom.length →
      hostLoad rom s = { s with ldstat := 2 } ∨ hostLoad rom s = { s with ldstat := 3 })

/-! ## Display -/

/-- R120: CLEAR turns every pixel off and changes nothing else but pc. That every word 0--0 is CLEAR, bits 11:4
ignored, is the spec's decision D13 (R79; log 5), and R120 marks the words 0x0000 and 0x0120 as derived from it. -/
def Obligations.ClearTurnsEveryPixelOff : Prop :=
  ∀ (mid : Byte) (s : State), decodeWord (wordZ 0x0 mid 0x0) = .clear mid ∧
    ∃ t, exec (.clear mid) s = .next t ∧ (∀ l, t.fb.pixel l = false) ∧ t = { s with pc := s.pc + 2, fb := t.fb }

/-- R126, R129 (inferences of the spec from R127): a DRAW that does not fault flips exactly the pixels its sprite
covers, VF is 1 exactly when a covered pixel was on before and 0 otherwise, and nothing else changes but pc. The
origin is read before VF is cleared (R122). -/
def Obligations.DrawFlipsCoveredPixels : Prop :=
  ∀ (x y : Nibble) (n : Nat) (s : State), n < 16 → DrawOk s x y n → ∃ t, exec (.draw x y n) s = .next t ∧
    (∀ l, t.fb.pixel l ≠ s.fb.pixel l ↔ Covers s x y n l) ∧
    ((∃ l, Covers s x y n l ∧ s.fb.pixel l = true) → t.getV 0xF = 1) ∧
    ((¬ ∃ l, Covers s x y n l ∧ s.fb.pixel l = true) → t.getV 0xF = 0) ∧
    OnlyRegistersAndPixels (fun k => k = 0xF) s t

/-- R129 (an inference of the spec from R127): no two set bits of one sprite share a target, in any edge mode. -/
def Obligations.SpriteTargetsAreDistinct : Prop :=
  ∀ (mode : EdgeMode) (xo yo r c r' c' l : Nat), xo < 64 → yo < 32 → r < 15 → c < 8 → r' < 15 → c' < 8 →
    drawTarget mode (xo + c) (yo + r) = .ok (some l) → drawTarget mode (xo + c') (yo + r') = .ok (some l) →
    r = r' ∧ c = c'

/-- R124, R197 (with the spec's decision D5): when the first thing out of range is the read of row r, DRAW faults with
AddressOutOfRange(I + r) and nothing is drawn. -/
def Obligations.DrawFaultsOnRowBeyondMemory : Prop :=
  ∀ (x y : Nibble) (n r : Nat) (s : State), r < n → RowOut s r → DrawOk s x y r →
    exec (.draw x y n) s = .next (takeFault (.addressOutOfRange (s.i.toNat + r)) (some s.ir) s)

/-- R125, R194, R197 (the spec's decisions D5, D6): in SPILL, when the first thing out of range is the set bit (r, c),
DRAW faults with FramebufferOutOfRange(L) and nothing is drawn. -/
def Obligations.DrawFaultsOnPixelBeyondArray : Prop :=
  ∀ (x y : Nibble) (n r c : Nat) (s : State), r < n → c < 8 → DrawOk s x y r → ¬ RowOut s r → PixelOut s x y r c →
    (∀ d < c, ¬ PixelOut s x y r d) →
    exec (.draw x y n) s = .next (takeFault
      (.framebufferOutOfRange (((s.getV y).toNat % 32 + r) * 64 + ((s.getV x).toNat % 64 + c))) (some s.ir) s)

/-- R130 (an inference of the spec from R127): DRAW with N = 0 reads no memory, changes no pixel and clears VF,
whatever I is. -/
def Obligations.DrawOfNoRowsClearsVF : Prop :=
  ∀ (x y : Nibble) (s : State), ∃ t, exec (.draw x y 0) s = .next t ∧ t.getV 0xF = 0 ∧
    OnlyRegisters (fun k => k = 0xF) s t

/-- R128 (the spec's decision D6): the three edge modes agree on a sprite whose set bits are all inside the screen. -/
def Obligations.EdgeModesAgreeInside : Prop :=
  ∀ (x y : Nibble) (n : Nat) (s t : State) (m m' : EdgeMode),
    (∀ r < n, ∀ c < 8, spriteBit (spriteByte s r) c = true → originX x s + c < 64 ∧ originY y s + r < 32) →
    exec (.draw x y n) { s with edgeMode := m } = .next t →
    exec (.draw x y n) { s with edgeMode := m' } = .next { t with edgeMode := m' }

/-- R194, R128 (the spec's decision D6): in CLIP and WRAP a DRAW can fault only for a row beyond memory. -/
def Obligations.OnlySpillFaultsOnPixels : Prop :=
  ∀ (x y : Nibble) (n : Nat) (s t : State), Running s → s.edgeMode ≠ .spill → exec (.draw x y n) s = .next t →
    t.faulted = true → t.fcause = 1 ∧ ∃ r < n, RowOut s r

/-- From R127 (R130 words it for a clear background; log 15): drawing the same sprite twice at one origin restores the
framebuffer, and VF is then 1 exactly when a covered pixel was off before the first drawing. -/
def Obligations.RedrawRestoresFramebuffer : Prop :=
  ∀ (x y : Nibble) (n : Nat) (s : State), n < 16 → x ≠ 0xF → y ≠ 0xF → DrawOk s x y n →
    ∃ t u, exec (.draw x y n) s = .next t ∧ exec (.draw x y n) t = .next u ∧ u.fb = s.fb ∧
      ((∃ l, Covers s x y n l ∧ s.fb.pixel l = false) → u.getV 0xF = 1) ∧
      ((¬ ∃ l, Covers s x y n l ∧ s.fb.pixel l = false) → u.getV 0xF = 0)

/-! ## Control flow -/

/-- R140, R193: RETURN pops; with an empty stack it faults and changes nothing but the status registers. That every
word 0--E is RETURN is the spec's decision D13 (R79), and that RETURN at SP = 0 is a fault its decision D2 (log 5). -/
def Obligations.ReturnPopsCallStack : Prop :=
  ∀ (mid : Byte) (s : State), decodeWord (wordZ 0x0 mid 0xE) = .ret mid ∧
    (∀ h : 0 < s.sp.val, exec (.ret mid) s =
      .next { s with sp := ⟨s.sp.val - 1, by omega⟩, pc := s.stack[s.sp.val - 1]'(by omega) }) ∧
    (s.sp = 0 → exec (.ret mid) s = .next (takeFault .stackUnderflow (some s.ir) s))

/-- R142, R192: CALL, of any word 2NNN, pushes a + 2 and jumps; SP = 15 is legal and leaves 16; at SP = 16 it faults.
That 16 is a legal, full stack is the spec's decision D9 (R28), and that CALL at SP = 16 is a fault its decision D2
(log 5). -/
def Obligations.CallPushesReturnAddress : Prop :=
  ∀ (nnn : Addr) (s : State), decodeWord (wordA 0x2 nnn) = .call nnn ∧
    (∀ h : s.sp.val < 16, exec (.call nnn) s =
      .next { s with stack := s.stack.set s.sp.val (s.pc + 2) h, sp := ⟨s.sp.val + 1, by omega⟩,
                     pc := nnn.setWidth 16 }) ∧
    (s.sp = 16 → exec (.call nnn) s = .next (takeFault .stackOverflow (some s.ir) s))

/-- R140, R142 (the source's property 5): a RETURN after a CALL resumes at a + 2 with SP as before the CALL, and only
the slot the CALL wrote differs. -/
def Obligations.ReturnUndoesCall : Prop :=
  ∀ (nnn : Addr) (mid : Byte) (s : State), s.sp.val < 16 →
    ∃ t u, exec (.call nnn) s = .next t ∧ exec (.ret mid) t = .next u ∧
      u = { s with pc := s.pc + 2, stack := t.stack } ∧ ∀ k : Fin 16, k.val ≠ s.sp.val → u.slot k = s.slot k

/-- R141: JUMP, of any word 1NNN. -/
def Obligations.JumpSetsPc : Prop :=
  ∀ (nnn : Addr) (s : State), decodeWord (wordA 0x1 nnn) = .jump nnn ∧
    exec (.jump nnn) s = .next { s with pc := nnn.setWidth 16 }

/-- R143, R144: the skips on an immediate, of any word 3XNN and 4XNN: pc is a + 4 when the condition holds and a + 2
when it does not; nothing else changes. -/
def Obligations.SkipsOnImmediate : Prop :=
  ∀ (x : Nibble) (nn : Byte) (s : State),
    decodeWord (wordXK 0x3 x nn) = .skipEqImm x nn ∧ decodeWord (wordXK 0x4 x nn) = .skipNeImm x nn ∧
    exec (.skipEqImm x nn) s = .next { s with pc := if s.getV x = nn then s.pc + 4 else s.pc + 2 } ∧
    exec (.skipNeImm x nn) s = .next { s with pc := if s.getV x ≠ nn then s.pc + 4 else s.pc + 2 }

/-- R145, R146: the skips on a register, of any word 5XYn and 9XYn (the spec's decision D13): the same, whatever the
ignored bits n are. -/
def Obligations.SkipsOnRegister : Prop :=
  ∀ (x y low : Nibble) (s : State),
    decodeWord (wordXYN 0x5 x y low) = .skipEqReg x y low ∧ decodeWord (wordXYN 0x9 x y low) = .skipNeReg x y low ∧
    exec (.skipEqReg x y low) s = .next { s with pc := if s.getV x = s.getV y then s.pc + 4 else s.pc + 2 } ∧
    exec (.skipNeReg x y low) s = .next { s with pc := if s.getV x ≠ s.getV y then s.pc + 4 else s.pc + 2 }

/-- R147: JUMP_OFFSET, of any word BNNN, sets pc to the exact sum, at most 0x10FE, never masked. -/
def Obligations.JumpOffsetAddsV0 : Prop :=
  ∀ (nnn : Addr) (s : State), decodeWord (wordA 0xB nnn) = .jumpOffset nnn ∧
    ∃ t, exec (.jumpOffset nnn) s = .next t ∧ t = { s with pc := t.pc } ∧
    t.pc.toNat = (s.getV 0x0).toNat + nnn.toNat ∧ t.pc.toNat ≤ 0x10FE

/-- R25: the only ways pc changes in an instruction that completes; one that faults leaves pc = a. -/
def Obligations.PcFollowsTable : Prop :=
  ∀ (i : Instr) (s t : State), Running s → exec i s = .next t →
    (t.faulted = false → t.pc = nextPc i s) ∧ (t.faulted = true → t.pc = s.pc)

/-- R228, R141 (the spec's decision D25): at an idle end (a jump to itself) a further step is DONE and changes no
state of the core. -/
def Obligations.IdleEndChangesNothing : Prop :=
  ∀ (s : State) (rnd : Byte), Running s → s.started = true → FetchOk s →
    s.fetch = .ok (wordA 0x1 (s.pc.setWidth 12)) →
    ∃ t, stepWith rnd s = .next t ∧ t.architectural = s.architectural ∧ replyOf s t = .done

/-! ## Loads and the ALU -/

/-- R160, R162: LOAD_IMM and MOVE, of any word 6XNN and 8XY0. -/
def Obligations.LoadsWriteTheirRegister : Prop :=
  ∀ (x y : Nibble) (nn : Byte) (s : State),
    decodeWord (wordXK 0x6 x nn) = .loadImm x nn ∧ decodeWord (wordXYN 0x8 x y 0x0) = .move x y ∧
    (∃ t, exec (.loadImm x nn) s = .next t ∧ t.getV x = nn ∧ OnlyRegisters (fun k => k = x) s t) ∧
    (∃ t, exec (.move x y) s = .next t ∧ t.getV x = s.getV y ∧ OnlyRegisters (fun k => k = x) s t)

/-- R161: ADD_IMM, of any word 7XNN, adds modulo 256 and writes no flag. -/
def Obligations.AddImmWrapsWithoutFlag : Prop :=
  ∀ (x : Nibble) (nn : Byte) (s : State), decodeWord (wordXK 0x7 x nn) = .addImm x nn ∧
    ∃ t, exec (.addImm x nn) s = .next t ∧
    (t.getV x).toNat = ((s.getV x).toNat + nn.toNat) % 256 ∧ OnlyRegisters (fun k => k = x) s t

/-- R163, R164, R165 (and R171): the logical operations, of any word 8XY1, 8XY2 and 8XY3; VF is left as it was unless
X = 0xF. -/
def Obligations.LogicalOperationsWriteNoFlag : Prop :=
  ∀ (x y : Nibble) (s : State),
    decodeWord (wordXYN 0x8 x y 0x1) = .or x y ∧ decodeWord (wordXYN 0x8 x y 0x2) = .and x y ∧
    decodeWord (wordXYN 0x8 x y 0x3) = .xor x y ∧
    (∃ t, exec (.or x y) s = .next t ∧ t.getV x = s.getV x ||| s.getV y ∧ OnlyRegisters (fun k => k = x) s t) ∧
    (∃ t, exec (.and x y) s = .next t ∧ t.getV x = s.getV x &&& s.getV y ∧ OnlyRegisters (fun k => k = x) s t) ∧
    (∃ t, exec (.xor x y) s = .next t ∧ t.getV x = s.getV x ^^^ s.getV y ∧ OnlyRegisters (fun k => k = x) s t)

/-- R166: ADD_CARRY, of any word 8XY4: the sum of the old registers modulo 256 in V[X]; VF the carry, unless X = 0xF,
where the sum overwrites it. -/
def Obligations.AddCarrySetsFlagThenSum : Prop :=
  ∀ (x y : Nibble) (s : State), decodeWord (wordXYN 0x8 x y 0x4) = .addCarry x y ∧
    ∃ t, exec (.addCarry x y) s = .next t ∧
    (t.getV x).toNat = ((s.getV x).toNat + (s.getV y).toNat) % 256 ∧
    (x ≠ 0xF → t.getV 0xF = if (s.getV x).toNat + (s.getV y).toNat > 255 then 1 else 0) ∧
    OnlyRegisters (fun k => k = x ∨ k = 0xF) s t

/-- R167 (with the spec's decision D14): SUB_BORROW, of any word 8XY5, writes VF first, strictly greater, and the
subtraction reads the registers after that: where X or Y is 0xF it reads the flag. -/
def Obligations.SubBorrowReadsAfterFlag : Prop :=
  ∀ (x y : Nibble) (s : State) (f : Byte), f = (if (s.getV x).toNat > (s.getV y).toNat then 1 else 0) →
    decodeWord (wordXYN 0x8 x y 0x5) = .subBorrow x y ∧ ∃ t, exec (.subBorrow x y) s = .next t ∧
      t.getV x = (if x = 0xF then f else s.getV x) - (if y = 0xF then f else s.getV y) ∧
      (x ≠ 0xF → t.getV 0xF = f) ∧ OnlyRegisters (fun k => k = x ∨ k = 0xF) s t

/-- R168: LOAD_INDEX, of any word ANNN, writes I, at most 0xFFF, and nothing else but pc. -/
def Obligations.LoadIndexSetsI : Prop :=
  ∀ (nnn : Addr) (s : State), decodeWord (wordA 0xA nnn) = .loadIndex nnn ∧
    ∃ t, exec (.loadIndex nnn) s = .next t ∧ t.i.toNat = nnn.toNat ∧
    t = { s with i := t.i, pc := s.pc + 2 }

/-- R169: RANDOM, of any word CXNN, writes rnd AND NN, for every byte rnd the host supplies (log 1); no bit outside NN
is set. -/
def Obligations.RandomMasksTheSuppliedByte : Prop :=
  ∀ (x : Nibble) (nn : Byte) (s : State), decodeWord (wordXK 0xC x nn) = .random x nn ∧
    ∃ t, exec (.random x nn) s = .next t ∧ t.getV x = s.rnd &&& nn ∧
    t.getV x &&& ~~~nn = 0 ∧ OnlyRegisters (fun k => k = x) s t

/-- R108: each of the 26 NOP rows (nop01 to nop0D and nop0F, nop86 to nop8F, nopE, nopF) completes with pc = a + 2 and
nothing else changed. That the rows nop0F and nop8F are NOP is the spec's decision D12 (log 5). -/
def Obligations.NopOnlyAdvancesPc : Prop :=
  ∀ (i : Instr) (s : State), isNop i → exec i s = .next { s with pc := s.pc + 2 }

/-! ## Whole-machine rules -/

/-- R38: the access matrix as a frame of every instruction, whether it completes or faults. An instruction writes
memory, IR, LDSTAT and the host's inputs never; I, SP, the stack, the framebuffer and each register only where the
matrix says so; and the fault registers only by taking a fault. -/
def Obligations.AccessMatrixFrames : Prop :=
  ∀ (i : Instr) (s t : State), exec i s = .next t →
    (∀ a, Memory.read t.mem a = Memory.read s.mem a) ∧ t.mem = s.mem ∧ t.ir = s.ir ∧ t.ldstat = s.ldstat ∧
    t.rnd = s.rnd ∧ t.rndIndex = s.rndIndex ∧ t.edgeMode = s.edgeMode ∧
    (¬ writesI i → t.i = s.i) ∧ (¬ writesSp i → t.sp = s.sp) ∧ (¬ writesStack i → t.stack = s.stack) ∧
    (∀ k : Fin 16, k.val ≠ s.sp.val → t.slot k = s.slot k) ∧ (¬ writesFb i → t.fb = s.fb) ∧
    (∀ k, ¬ writesV k i → t.getV k = s.getV k) ∧
    (statusPort t = statusPort s ∨ ∃ f, t = takeFault f (some s.ir) s)

/-- R100, D30: every instruction but RANDOM ignores the byte rnd. -/
def Obligations.OnlyRandomReadsRnd : Prop :=
  ∀ (i : Instr) (s t : State) (r : Byte), (∀ x nn, i ≠ .random x nn) → exec i s = .next t →
    exec i { s with rnd := r } = .next { t with rnd := r }

/-- R30 (an inference of the spec): what stale call-stack slots hold is unobservable: two states that differ only
there step to two such states. -/
def Obligations.StaleSlotsAreUnobservable : Prop :=
  ∀ (s t : State) (rnd : Byte), SameButStale s t → SameOutcomeButStale (stepWith rnd s) (stepWith rnd t)

/-- R107, R33 (with the spec's decisions D11, D20): after a DONE step the core presents 2048 pixels in row-major
order, 0 or PIXEL_ON, with pitch 256; after FAULT or IGNORED it presents nothing. PIXEL_ON is some nonzero word (log
4). -/
def Obligations.PresentsAfterDoneOnly : Prop :=
  Config.pixelOn ≠ 0 ∧
  ∀ (s t : State) (rnd : Byte), stepWith rnd s = .next t →
    (s.faulted = true ∨ t.faulted = true → presented s t = none) ∧
    (s.faulted = false → t.faulted = false → ∃ f, presented s t = some f ∧ f.pitch = 256 ∧ f.pixels.length = 2048 ∧
      ∀ x < 64, ∀ y < 32, f.pixels[y * 64 + x]? = some (if t.fb.pixel (y * 64 + x) then Config.pixelOn else 0))

/-! ## DRAW in the spec's own terms -/

/-- R125, R127 (the edge modes are the spec's decision D6): the pixel of column c is bit 7 - c of the row's byte, so that
bit 7 is the leftmost; a set pixel at column xo + c and row yo + r goes to L = row * 64 + column in SPILL, which raises for
L of 2048 or more; to the same L in CLIP, but to nothing past column 63 or row 31; and to (row mod 32) * 64 + (column mod
64) in WRAP. -/
def Obligations.SpriteBitsAndTargetsFollowFormulas : Prop :=
  (∀ (b : Byte) (c : Nat), c < 8 → spriteBit b c = b.getLsbD (7 - c) ∧
    (spriteBit b c = true ↔ b &&& ((0x80 : Byte) >>> c) ≠ 0)) ∧
  ∀ col row : Nat,
    (row * 64 + col < 2048 → drawTarget .spill col row = .ok (some (row * 64 + col))) ∧
    (2048 ≤ row * 64 + col → drawTarget .spill col row = .error (.framebufferOutOfRange (row * 64 + col))) ∧
    (col < 64 → row < 32 → drawTarget .clip col row = .ok (some (row * 64 + col))) ∧
    (64 ≤ col ∨ 32 ≤ row → drawTarget .clip col row = .ok none) ∧
    drawTarget .wrap col row = .ok (some (row % 32 * 64 + col % 64))

/-- R122, R124 to R127 (with the spec's decision D6), in the rules' own formulas and not the engine's functions: where no
row I + r is beyond memory and, in SPILL, no set bit has its L at 2048 or above, DRAW completes; it flips exactly the pixels
that some set bit, bit 7 the leftmost, plots at the L of the mode; VF is 1 exactly when one of them was on before and 0
otherwise; nothing else changes but pc. -/
def Obligations.DrawFollowsFormulas : Prop :=
  ∀ (x y : Nibble) (n : Nat) (s : State), n < 16 → (∀ r < n, s.i.toNat + r < 4096) →
    (s.edgeMode = .spill → ∀ r < n, ∀ c < 8, SpriteSet s r c →
      ((s.getV y).toNat % 32 + r) * 64 + ((s.getV x).toNat % 64 + c) < 2048) →
    ∃ t, exec (.draw x y n) s = .next t ∧
      (∀ l, t.fb.pixel l ≠ s.fb.pixel l ↔ DrawPlots s x y n l) ∧
      ((∃ l, DrawPlots s x y n l ∧ s.fb.pixel l = true) → t.getV 0xF = 1) ∧
      ((¬ ∃ l, DrawPlots s x y n l ∧ s.fb.pixel l = true) → t.getV 0xF = 0) ∧
      OnlyRegistersAndPixels (fun k => k = 0xF) s t
end

