-- ==== Sys2Proof/Laws/Decode.lean ====
section
/-! SUPPORT. The fields of an assembled word, and a word put together again from its fields (R76, R77). -/

namespace Sys2Proof

/-! ### The bits of each layout (R77) -/

theorem getLsbD_wordA (f : Nibble) (n : Addr) (i : Nat) :
    (wordA f n).getLsbD i = if i < 12 then n.getLsbD i else f.getLsbD (i - 12) :=
  BitVec.getLsbD_append

theorem getLsbD_byte (a b : Nibble) (i : Nat) :
    (a ++ b : Byte).getLsbD i = if i < 4 then b.getLsbD i else a.getLsbD (i - 4) :=
  BitVec.getLsbD_append

theorem getLsbD_wordOfBytes (hi lo : Byte) (i : Nat) :
    (wordOfBytes hi lo).getLsbD i = if i < 8 then lo.getLsbD i else hi.getLsbD (i - 8) :=
  BitVec.getLsbD_append

theorem wordXK_eq (f x : Nibble) (nn : Byte) : wordXK f x nn = wordOfBytes (f ++ x : Byte) nn := rfl

theorem wordXYN_eq (f x y n : Nibble) : wordXYN f x y n = wordOfBytes (f ++ x : Byte) (y ++ n : Byte) := rfl

theorem getLsbD_wordZ (f : Nibble) (m : Byte) (n : Nibble) (i : Nat) :
    (wordZ f m n).getLsbD i =
      if i < 4 then n.getLsbD i else if i - 4 < 8 then m.getLsbD (i - 4) else f.getLsbD (i - 4 - 8) := by
  have h1 : (wordZ f m n).getLsbD i = if i < 4 then n.getLsbD i else (f ++ m : Addr).getLsbD (i - 4) :=
    BitVec.getLsbD_append
  have h2 : (f ++ m : Addr).getLsbD (i - 4) = if i - 4 < 8 then m.getLsbD (i - 4) else f.getLsbD (i - 4 - 8) :=
    BitVec.getLsbD_append
  rw [h1, h2]

/-! ### The fields of an assembled word -/

@[simp] theorem fieldF_wordA (f : Nibble) (n : Addr) : fieldF (wordA f n) = f := by
  apply BitVec.eq_of_getLsbD_eq; intro i hi
  simp [fieldF, getLsbD_wordA, BitVec.getLsbD_extractLsb', hi, -BitVec.getLsbD_eq_getElem]
@[simp] theorem fieldNNN_wordA (f : Nibble) (n : Addr) : fieldNNN (wordA f n) = n := by
  apply BitVec.eq_of_getLsbD_eq; intro i hi
  simp [fieldNNN, getLsbD_wordA, BitVec.getLsbD_extractLsb', hi, -BitVec.getLsbD_eq_getElem]

@[simp] theorem fieldNN_wordOfBytes (hi lo : Byte) : fieldNN (wordOfBytes hi lo) = lo := by
  apply BitVec.eq_of_getLsbD_eq; intro i hi
  simp [fieldNN, getLsbD_wordOfBytes, BitVec.getLsbD_extractLsb', hi, -BitVec.getLsbD_eq_getElem]
@[simp] theorem fieldF_wordOfBytes (a b : Nibble) (lo : Byte) : fieldF (wordOfBytes (a ++ b : Byte) lo) = a := by
  apply BitVec.eq_of_getLsbD_eq; intro i hi
  simp [fieldF, getLsbD_wordOfBytes, getLsbD_byte, BitVec.getLsbD_extractLsb', hi, -BitVec.getLsbD_eq_getElem,
    show ¬ 12 + i < 8 by omega, show ¬ 12 + i - 8 < 4 by omega, show 12 + i - 8 - 4 = i by omega]
@[simp] theorem fieldX_wordOfBytes (a b : Nibble) (lo : Byte) : fieldX (wordOfBytes (a ++ b : Byte) lo) = b := by
  apply BitVec.eq_of_getLsbD_eq; intro i hi
  simp [fieldX, getLsbD_wordOfBytes, getLsbD_byte, BitVec.getLsbD_extractLsb', hi, -BitVec.getLsbD_eq_getElem]
@[simp] theorem fieldY_wordOfBytes (hi : Byte) (a b : Nibble) : fieldY (wordOfBytes hi (a ++ b : Byte)) = a := by
  apply BitVec.eq_of_getLsbD_eq; intro i hi
  simp [fieldY, getLsbD_wordOfBytes, getLsbD_byte, BitVec.getLsbD_extractLsb', hi, -BitVec.getLsbD_eq_getElem,
    show 4 + i < 8 by omega]
@[simp] theorem fieldN_wordOfBytes (hi : Byte) (a b : Nibble) : fieldN (wordOfBytes hi (a ++ b : Byte)) = b := by
  apply BitVec.eq_of_getLsbD_eq; intro i hi
  simp [fieldN, getLsbD_wordOfBytes, getLsbD_byte, BitVec.getLsbD_extractLsb', hi, -BitVec.getLsbD_eq_getElem,
    show i < 8 by omega]

@[simp] theorem fieldF_wordZ (f : Nibble) (m : Byte) (n : Nibble) : fieldF (wordZ f m n) = f := by
  apply BitVec.eq_of_getLsbD_eq; intro i hi
  simp [fieldF, getLsbD_wordZ, BitVec.getLsbD_extractLsb', hi, -BitVec.getLsbD_eq_getElem,
    show ¬ 12 + i < 4 by omega, show ¬ 12 + i - 4 < 8 by omega, show 12 + i - 4 - 8 = i by omega]
@[simp] theorem fieldMid_wordZ (f : Nibble) (m : Byte) (n : Nibble) : fieldMid (wordZ f m n) = m := by
  apply BitVec.eq_of_getLsbD_eq; intro i hi
  simp [fieldMid, getLsbD_wordZ, BitVec.getLsbD_extractLsb', hi, -BitVec.getLsbD_eq_getElem]
@[simp] theorem fieldN_wordZ (f : Nibble) (m : Byte) (n : Nibble) : fieldN (wordZ f m n) = n := by
  apply BitVec.eq_of_getLsbD_eq; intro i hi
  simp [fieldN, getLsbD_wordZ, BitVec.getLsbD_extractLsb', hi, -BitVec.getLsbD_eq_getElem]

/-! ### A word from its fields -/

theorem wordA_fields (w : Word) : wordA (fieldF w) (fieldNNN w) = w := by
  apply BitVec.eq_of_getLsbD_eq; intro i hi
  by_cases h : i < 12
  · simp [getLsbD_wordA, fieldNNN, BitVec.getLsbD_extractLsb', h, -BitVec.getLsbD_eq_getElem]
  · simp [getLsbD_wordA, fieldF, BitVec.getLsbD_extractLsb', h, -BitVec.getLsbD_eq_getElem,
      show i - 12 < 4 by omega, show 12 + (i - 12) = i by omega]

/-- The high byte of a word is its family and its X. -/
theorem highByte_eq (w : Word) : w.extractLsb' 8 8 = (fieldF w ++ fieldX w : Byte) := by
  apply BitVec.eq_of_getLsbD_eq; intro i hi
  by_cases h : i < 4
  · simp [getLsbD_byte, fieldX, BitVec.getLsbD_extractLsb', h, hi, -BitVec.getLsbD_eq_getElem]
  · simp [getLsbD_byte, fieldF, BitVec.getLsbD_extractLsb', h, hi, -BitVec.getLsbD_eq_getElem,
      show i - 4 < 4 by omega, show 12 + (i - 4) = 8 + i by omega]

/-- The low byte of a word is its Y and its N. -/
theorem fieldNN_eq (w : Word) : fieldNN w = (fieldY w ++ fieldN w : Byte) := by
  apply BitVec.eq_of_getLsbD_eq; intro i hi
  by_cases h : i < 4
  · simp [getLsbD_byte, fieldN, fieldNN, BitVec.getLsbD_extractLsb', h, hi, -BitVec.getLsbD_eq_getElem]
  · simp [getLsbD_byte, fieldY, fieldNN, BitVec.getLsbD_extractLsb', h, hi, -BitVec.getLsbD_eq_getElem,
      show i - 4 < 4 by omega, show 4 + (i - 4) = i by omega]

/-- The two bytes of a word make it again (R53). -/
theorem wordOfBytes_split (w : Word) : wordOfBytes (w.extractLsb' 8 8) (w.extractLsb' 0 8) = w := by
  apply BitVec.eq_of_getLsbD_eq; intro i hi
  by_cases h : i < 8
  · simp [getLsbD_wordOfBytes, BitVec.getLsbD_extractLsb', h, -BitVec.getLsbD_eq_getElem]
  · simp [getLsbD_wordOfBytes, BitVec.getLsbD_extractLsb', h, -BitVec.getLsbD_eq_getElem,
      show i - 8 < 8 by omega, show 8 + (i - 8) = i by omega]

theorem wordXK_fields (w : Word) : wordXK (fieldF w) (fieldX w) (fieldNN w) = w := by
  rw [wordXK_eq, ← highByte_eq]; exact wordOfBytes_split w

theorem wordXYN_fields (w : Word) : wordXYN (fieldF w) (fieldX w) (fieldY w) (fieldN w) = w := by
  rw [wordXYN_eq, ← highByte_eq, ← fieldNN_eq]; exact wordOfBytes_split w

theorem wordZ_fields (w : Word) : wordZ (fieldF w) (fieldMid w) (fieldN w) = w := by
  apply BitVec.eq_of_getLsbD_eq; intro i hi
  by_cases h : i < 4
  · simp [getLsbD_wordZ, fieldN, BitVec.getLsbD_extractLsb', h, -BitVec.getLsbD_eq_getElem]
  · by_cases h' : i - 4 < 8
    · simp [getLsbD_wordZ, fieldMid, BitVec.getLsbD_extractLsb', h, h', -BitVec.getLsbD_eq_getElem,
        show 4 + (i - 4) = i by omega]
    · simp [getLsbD_wordZ, fieldF, BitVec.getLsbD_extractLsb', h, h', -BitVec.getLsbD_eq_getElem,
        show i - 4 - 8 < 4 by omega, show 12 + (i - 4 - 8) = i by omega]

end Sys2Proof
end

