-- ==== Sys2Proof/Laws/State.lean ====
section
/-! SUPPORT. For every update of the state, what each field is afterwards: one lemma per field, true by definition. -/

namespace Sys2Proof.Machine

/-! ### setV -/

@[simp] theorem State.v_setV (x : Nibble) (b : Byte) (s : State) : (s.setV x b).v = s.v.set x.toNat b x.isLt := rfl
@[simp] theorem State.i_setV (x : Nibble) (b : Byte) (s : State) : (s.setV x b).i = s.i := rfl
@[simp] theorem State.pc_setV (x : Nibble) (b : Byte) (s : State) : (s.setV x b).pc = s.pc := rfl
@[simp] theorem State.sp_setV (x : Nibble) (b : Byte) (s : State) : (s.setV x b).sp = s.sp := rfl
@[simp] theorem State.stack_setV (x : Nibble) (b : Byte) (s : State) : (s.setV x b).stack = s.stack := rfl
@[simp] theorem State.mem_setV (x : Nibble) (b : Byte) (s : State) : (s.setV x b).mem = s.mem := rfl
@[simp] theorem State.fb_setV (x : Nibble) (b : Byte) (s : State) : (s.setV x b).fb = s.fb := rfl
@[simp] theorem State.ir_setV (x : Nibble) (b : Byte) (s : State) : (s.setV x b).ir = s.ir := rfl
@[simp] theorem State.status_setV (x : Nibble) (b : Byte) (s : State) : (s.setV x b).status = s.status := rfl
@[simp] theorem State.fcause_setV (x : Nibble) (b : Byte) (s : State) : (s.setV x b).fcause = s.fcause := rfl
@[simp] theorem State.fpc_setV (x : Nibble) (b : Byte) (s : State) : (s.setV x b).fpc = s.fpc := rfl
@[simp] theorem State.faddr_setV (x : Nibble) (b : Byte) (s : State) : (s.setV x b).faddr = s.faddr := rfl
@[simp] theorem State.finsn_setV (x : Nibble) (b : Byte) (s : State) : (s.setV x b).finsn = s.finsn := rfl
@[simp] theorem State.ldstat_setV (x : Nibble) (b : Byte) (s : State) : (s.setV x b).ldstat = s.ldstat := rfl
@[simp] theorem State.rnd_setV (x : Nibble) (b : Byte) (s : State) : (s.setV x b).rnd = s.rnd := rfl
@[simp] theorem State.rndIndex_setV (x : Nibble) (b : Byte) (s : State) : (s.setV x b).rndIndex = s.rndIndex := rfl
@[simp] theorem State.edgeMode_setV (x : Nibble) (b : Byte) (s : State) : (s.setV x b).edgeMode = s.edgeMode := rfl

/-! ### setFlag -/

@[simp] theorem State.v_setFlag (c : Bool) (s : State) : (s.setFlag c).v = s.v.set flagReg.toNat (flagByte c) flagReg.isLt := rfl
@[simp] theorem State.i_setFlag (c : Bool) (s : State) : (s.setFlag c).i = s.i := rfl
@[simp] theorem State.pc_setFlag (c : Bool) (s : State) : (s.setFlag c).pc = s.pc := rfl
@[simp] theorem State.sp_setFlag (c : Bool) (s : State) : (s.setFlag c).sp = s.sp := rfl
@[simp] theorem State.stack_setFlag (c : Bool) (s : State) : (s.setFlag c).stack = s.stack := rfl
@[simp] theorem State.mem_setFlag (c : Bool) (s : State) : (s.setFlag c).mem = s.mem := rfl
@[simp] theorem State.fb_setFlag (c : Bool) (s : State) : (s.setFlag c).fb = s.fb := rfl
@[simp] theorem State.ir_setFlag (c : Bool) (s : State) : (s.setFlag c).ir = s.ir := rfl
@[simp] theorem State.status_setFlag (c : Bool) (s : State) : (s.setFlag c).status = s.status := rfl
@[simp] theorem State.fcause_setFlag (c : Bool) (s : State) : (s.setFlag c).fcause = s.fcause := rfl
@[simp] theorem State.fpc_setFlag (c : Bool) (s : State) : (s.setFlag c).fpc = s.fpc := rfl
@[simp] theorem State.faddr_setFlag (c : Bool) (s : State) : (s.setFlag c).faddr = s.faddr := rfl
@[simp] theorem State.finsn_setFlag (c : Bool) (s : State) : (s.setFlag c).finsn = s.finsn := rfl
@[simp] theorem State.ldstat_setFlag (c : Bool) (s : State) : (s.setFlag c).ldstat = s.ldstat := rfl
@[simp] theorem State.rnd_setFlag (c : Bool) (s : State) : (s.setFlag c).rnd = s.rnd := rfl
@[simp] theorem State.rndIndex_setFlag (c : Bool) (s : State) : (s.setFlag c).rndIndex = s.rndIndex := rfl
@[simp] theorem State.edgeMode_setFlag (c : Bool) (s : State) : (s.setFlag c).edgeMode = s.edgeMode := rfl

/-! ### setI -/

@[simp] theorem State.v_setI (w : Word) (s : State) : (s.setI w).v = s.v := rfl
@[simp] theorem State.i_setI (w : Word) (s : State) : (s.setI w).i = w := rfl
@[simp] theorem State.pc_setI (w : Word) (s : State) : (s.setI w).pc = s.pc := rfl
@[simp] theorem State.sp_setI (w : Word) (s : State) : (s.setI w).sp = s.sp := rfl
@[simp] theorem State.stack_setI (w : Word) (s : State) : (s.setI w).stack = s.stack := rfl
@[simp] theorem State.mem_setI (w : Word) (s : State) : (s.setI w).mem = s.mem := rfl
@[simp] theorem State.fb_setI (w : Word) (s : State) : (s.setI w).fb = s.fb := rfl
@[simp] theorem State.ir_setI (w : Word) (s : State) : (s.setI w).ir = s.ir := rfl
@[simp] theorem State.status_setI (w : Word) (s : State) : (s.setI w).status = s.status := rfl
@[simp] theorem State.fcause_setI (w : Word) (s : State) : (s.setI w).fcause = s.fcause := rfl
@[simp] theorem State.fpc_setI (w : Word) (s : State) : (s.setI w).fpc = s.fpc := rfl
@[simp] theorem State.faddr_setI (w : Word) (s : State) : (s.setI w).faddr = s.faddr := rfl
@[simp] theorem State.finsn_setI (w : Word) (s : State) : (s.setI w).finsn = s.finsn := rfl
@[simp] theorem State.ldstat_setI (w : Word) (s : State) : (s.setI w).ldstat = s.ldstat := rfl
@[simp] theorem State.rnd_setI (w : Word) (s : State) : (s.setI w).rnd = s.rnd := rfl
@[simp] theorem State.rndIndex_setI (w : Word) (s : State) : (s.setI w).rndIndex = s.rndIndex := rfl
@[simp] theorem State.edgeMode_setI (w : Word) (s : State) : (s.setI w).edgeMode = s.edgeMode := rfl

/-! ### setPc -/

@[simp] theorem State.v_setPc (w : Word) (s : State) : (s.setPc w).v = s.v := rfl
@[simp] theorem State.i_setPc (w : Word) (s : State) : (s.setPc w).i = s.i := rfl
@[simp] theorem State.pc_setPc (w : Word) (s : State) : (s.setPc w).pc = w := rfl
@[simp] theorem State.sp_setPc (w : Word) (s : State) : (s.setPc w).sp = s.sp := rfl
@[simp] theorem State.stack_setPc (w : Word) (s : State) : (s.setPc w).stack = s.stack := rfl
@[simp] theorem State.mem_setPc (w : Word) (s : State) : (s.setPc w).mem = s.mem := rfl
@[simp] theorem State.fb_setPc (w : Word) (s : State) : (s.setPc w).fb = s.fb := rfl
@[simp] theorem State.ir_setPc (w : Word) (s : State) : (s.setPc w).ir = s.ir := rfl
@[simp] theorem State.status_setPc (w : Word) (s : State) : (s.setPc w).status = s.status := rfl
@[simp] theorem State.fcause_setPc (w : Word) (s : State) : (s.setPc w).fcause = s.fcause := rfl
@[simp] theorem State.fpc_setPc (w : Word) (s : State) : (s.setPc w).fpc = s.fpc := rfl
@[simp] theorem State.faddr_setPc (w : Word) (s : State) : (s.setPc w).faddr = s.faddr := rfl
@[simp] theorem State.finsn_setPc (w : Word) (s : State) : (s.setPc w).finsn = s.finsn := rfl
@[simp] theorem State.ldstat_setPc (w : Word) (s : State) : (s.setPc w).ldstat = s.ldstat := rfl
@[simp] theorem State.rnd_setPc (w : Word) (s : State) : (s.setPc w).rnd = s.rnd := rfl
@[simp] theorem State.rndIndex_setPc (w : Word) (s : State) : (s.setPc w).rndIndex = s.rndIndex := rfl
@[simp] theorem State.edgeMode_setPc (w : Word) (s : State) : (s.setPc w).edgeMode = s.edgeMode := rfl

/-! ### advancePc -/

@[simp] theorem State.v_advancePc (s : State) : (s.advancePc).v = s.v := rfl
@[simp] theorem State.i_advancePc (s : State) : (s.advancePc).i = s.i := rfl
@[simp] theorem State.pc_advancePc (s : State) : (s.advancePc).pc = s.pc + 2 := rfl
@[simp] theorem State.sp_advancePc (s : State) : (s.advancePc).sp = s.sp := rfl
@[simp] theorem State.stack_advancePc (s : State) : (s.advancePc).stack = s.stack := rfl
@[simp] theorem State.mem_advancePc (s : State) : (s.advancePc).mem = s.mem := rfl
@[simp] theorem State.fb_advancePc (s : State) : (s.advancePc).fb = s.fb := rfl
@[simp] theorem State.ir_advancePc (s : State) : (s.advancePc).ir = s.ir := rfl
@[simp] theorem State.status_advancePc (s : State) : (s.advancePc).status = s.status := rfl
@[simp] theorem State.fcause_advancePc (s : State) : (s.advancePc).fcause = s.fcause := rfl
@[simp] theorem State.fpc_advancePc (s : State) : (s.advancePc).fpc = s.fpc := rfl
@[simp] theorem State.faddr_advancePc (s : State) : (s.advancePc).faddr = s.faddr := rfl
@[simp] theorem State.finsn_advancePc (s : State) : (s.advancePc).finsn = s.finsn := rfl
@[simp] theorem State.ldstat_advancePc (s : State) : (s.advancePc).ldstat = s.ldstat := rfl
@[simp] theorem State.rnd_advancePc (s : State) : (s.advancePc).rnd = s.rnd := rfl
@[simp] theorem State.rndIndex_advancePc (s : State) : (s.advancePc).rndIndex = s.rndIndex := rfl
@[simp] theorem State.edgeMode_advancePc (s : State) : (s.advancePc).edgeMode = s.edgeMode := rfl

/-! ### setStarted -/

@[simp] theorem State.v_setStarted (s : State) : (s.setStarted).v = s.v := rfl
@[simp] theorem State.i_setStarted (s : State) : (s.setStarted).i = s.i := rfl
@[simp] theorem State.pc_setStarted (s : State) : (s.setStarted).pc = s.pc := rfl
@[simp] theorem State.sp_setStarted (s : State) : (s.setStarted).sp = s.sp := rfl
@[simp] theorem State.stack_setStarted (s : State) : (s.setStarted).stack = s.stack := rfl
@[simp] theorem State.mem_setStarted (s : State) : (s.setStarted).mem = s.mem := rfl
@[simp] theorem State.fb_setStarted (s : State) : (s.setStarted).fb = s.fb := rfl
@[simp] theorem State.ir_setStarted (s : State) : (s.setStarted).ir = s.ir := rfl
@[simp] theorem State.status_setStarted (s : State) : (s.setStarted).status = s.status ||| 0x02 := rfl
@[simp] theorem State.fcause_setStarted (s : State) : (s.setStarted).fcause = s.fcause := rfl
@[simp] theorem State.fpc_setStarted (s : State) : (s.setStarted).fpc = s.fpc := rfl
@[simp] theorem State.faddr_setStarted (s : State) : (s.setStarted).faddr = s.faddr := rfl
@[simp] theorem State.finsn_setStarted (s : State) : (s.setStarted).finsn = s.finsn := rfl
@[simp] theorem State.ldstat_setStarted (s : State) : (s.setStarted).ldstat = s.ldstat := rfl
@[simp] theorem State.rnd_setStarted (s : State) : (s.setStarted).rnd = s.rnd := rfl
@[simp] theorem State.rndIndex_setStarted (s : State) : (s.setStarted).rndIndex = s.rndIndex := rfl
@[simp] theorem State.edgeMode_setStarted (s : State) : (s.setStarted).edgeMode = s.edgeMode := rfl

/-! ### accept -/

@[simp] theorem State.v_accept (rnd : Byte) (s : State) : (s.accept rnd).v = s.v := rfl
@[simp] theorem State.i_accept (rnd : Byte) (s : State) : (s.accept rnd).i = s.i := rfl
@[simp] theorem State.pc_accept (rnd : Byte) (s : State) : (s.accept rnd).pc = s.pc := rfl
@[simp] theorem State.sp_accept (rnd : Byte) (s : State) : (s.accept rnd).sp = s.sp := rfl
@[simp] theorem State.stack_accept (rnd : Byte) (s : State) : (s.accept rnd).stack = s.stack := rfl
@[simp] theorem State.mem_accept (rnd : Byte) (s : State) : (s.accept rnd).mem = s.mem := rfl
@[simp] theorem State.fb_accept (rnd : Byte) (s : State) : (s.accept rnd).fb = s.fb := rfl
@[simp] theorem State.ir_accept (rnd : Byte) (s : State) : (s.accept rnd).ir = s.ir := rfl
@[simp] theorem State.status_accept (rnd : Byte) (s : State) : (s.accept rnd).status = s.status ||| 0x02 := rfl
@[simp] theorem State.fcause_accept (rnd : Byte) (s : State) : (s.accept rnd).fcause = s.fcause := rfl
@[simp] theorem State.fpc_accept (rnd : Byte) (s : State) : (s.accept rnd).fpc = s.fpc := rfl
@[simp] theorem State.faddr_accept (rnd : Byte) (s : State) : (s.accept rnd).faddr = s.faddr := rfl
@[simp] theorem State.finsn_accept (rnd : Byte) (s : State) : (s.accept rnd).finsn = s.finsn := rfl
@[simp] theorem State.ldstat_accept (rnd : Byte) (s : State) : (s.accept rnd).ldstat = s.ldstat := rfl
@[simp] theorem State.rnd_accept (rnd : Byte) (s : State) : (s.accept rnd).rnd = rnd := rfl
@[simp] theorem State.rndIndex_accept (rnd : Byte) (s : State) : (s.accept rnd).rndIndex = s.rndIndex + 1 := rfl
@[simp] theorem State.edgeMode_accept (rnd : Byte) (s : State) : (s.accept rnd).edgeMode = s.edgeMode := rfl

/-! ### setLdstat -/

@[simp] theorem State.v_setLdstat (code : Byte) (s : State) : (s.setLdstat code).v = s.v := rfl
@[simp] theorem State.i_setLdstat (code : Byte) (s : State) : (s.setLdstat code).i = s.i := rfl
@[simp] theorem State.pc_setLdstat (code : Byte) (s : State) : (s.setLdstat code).pc = s.pc := rfl
@[simp] theorem State.sp_setLdstat (code : Byte) (s : State) : (s.setLdstat code).sp = s.sp := rfl
@[simp] theorem State.stack_setLdstat (code : Byte) (s : State) : (s.setLdstat code).stack = s.stack := rfl
@[simp] theorem State.mem_setLdstat (code : Byte) (s : State) : (s.setLdstat code).mem = s.mem := rfl
@[simp] theorem State.fb_setLdstat (code : Byte) (s : State) : (s.setLdstat code).fb = s.fb := rfl
@[simp] theorem State.ir_setLdstat (code : Byte) (s : State) : (s.setLdstat code).ir = s.ir := rfl
@[simp] theorem State.status_setLdstat (code : Byte) (s : State) : (s.setLdstat code).status = s.status := rfl
@[simp] theorem State.fcause_setLdstat (code : Byte) (s : State) : (s.setLdstat code).fcause = s.fcause := rfl
@[simp] theorem State.fpc_setLdstat (code : Byte) (s : State) : (s.setLdstat code).fpc = s.fpc := rfl
@[simp] theorem State.faddr_setLdstat (code : Byte) (s : State) : (s.setLdstat code).faddr = s.faddr := rfl
@[simp] theorem State.finsn_setLdstat (code : Byte) (s : State) : (s.setLdstat code).finsn = s.finsn := rfl
@[simp] theorem State.ldstat_setLdstat (code : Byte) (s : State) : (s.setLdstat code).ldstat = code := rfl
@[simp] theorem State.rnd_setLdstat (code : Byte) (s : State) : (s.setLdstat code).rnd = s.rnd := rfl
@[simp] theorem State.rndIndex_setLdstat (code : Byte) (s : State) : (s.setLdstat code).rndIndex = s.rndIndex := rfl
@[simp] theorem State.edgeMode_setLdstat (code : Byte) (s : State) : (s.setLdstat code).edgeMode = s.edgeMode := rfl

/-! ### takeFault (R195) -/

@[simp] theorem State.v_takeFault (f : Fault) (insn : Option Word) (s : State) :
    (takeFault f insn s).v = s.v := rfl
@[simp] theorem State.i_takeFault (f : Fault) (insn : Option Word) (s : State) :
    (takeFault f insn s).i = s.i := rfl
@[simp] theorem State.pc_takeFault (f : Fault) (insn : Option Word) (s : State) :
    (takeFault f insn s).pc = s.pc := rfl
@[simp] theorem State.sp_takeFault (f : Fault) (insn : Option Word) (s : State) :
    (takeFault f insn s).sp = s.sp := rfl
@[simp] theorem State.stack_takeFault (f : Fault) (insn : Option Word) (s : State) :
    (takeFault f insn s).stack = s.stack := rfl
@[simp] theorem State.mem_takeFault (f : Fault) (insn : Option Word) (s : State) :
    (takeFault f insn s).mem = s.mem := rfl
@[simp] theorem State.fb_takeFault (f : Fault) (insn : Option Word) (s : State) :
    (takeFault f insn s).fb = s.fb := rfl
@[simp] theorem State.ir_takeFault (f : Fault) (insn : Option Word) (s : State) :
    (takeFault f insn s).ir = s.ir := rfl
@[simp] theorem State.status_takeFault (f : Fault) (insn : Option Word) (s : State) :
    (takeFault f insn s).status = (s.status &&& 0xFB) ||| (if insn.isSome then 0x05 else 0x01) := rfl
@[simp] theorem State.fcause_takeFault (f : Fault) (insn : Option Word) (s : State) :
    (takeFault f insn s).fcause = f.code := rfl
@[simp] theorem State.fpc_takeFault (f : Fault) (insn : Option Word) (s : State) :
    (takeFault f insn s).fpc = s.pc := rfl
@[simp] theorem State.faddr_takeFault (f : Fault) (insn : Option Word) (s : State) :
    (takeFault f insn s).faddr = BitVec.ofNat 16 f.value := rfl
@[simp] theorem State.finsn_takeFault (f : Fault) (insn : Option Word) (s : State) :
    (takeFault f insn s).finsn = insn.getD 0 := rfl
@[simp] theorem State.ldstat_takeFault (f : Fault) (insn : Option Word) (s : State) :
    (takeFault f insn s).ldstat = s.ldstat := rfl
@[simp] theorem State.rnd_takeFault (f : Fault) (insn : Option Word) (s : State) :
    (takeFault f insn s).rnd = s.rnd := rfl
@[simp] theorem State.rndIndex_takeFault (f : Fault) (insn : Option Word) (s : State) :
    (takeFault f insn s).rndIndex = s.rndIndex := rfl
@[simp] theorem State.edgeMode_takeFault (f : Fault) (insn : Option Word) (s : State) :
    (takeFault f insn s).edgeMode = s.edgeMode := rfl

/-! ### skipIf -/

theorem State.skipIf_eq (c : Bool) (s : State) : s.skipIf c = s.setPc (if c then s.pc + 2 else s.pc) := by
  cases c <;> rfl

/-! ### Registers -/

@[simp] theorem State.getV_setV (x y : Nibble) (b : Byte) (s : State) :
    (s.setV x b).getV y = if x = y then b else s.getV y := by
  simp [State.setV, State.getV, Vector.getElem_set, BitVec.toNat_inj]

@[simp] theorem State.getV_setFlag (c : Bool) (y : Nibble) (s : State) :
    (s.setFlag c).getV y = if flagReg = y then flagByte c else s.getV y :=
  State.getV_setV flagReg y (flagByte c) s

@[simp] theorem State.getV_setPc (y : Nibble) (w : Word) (s : State) : (s.setPc w).getV y = s.getV y := rfl
@[simp] theorem State.getV_advancePc (y : Nibble) (s : State) : s.advancePc.getV y = s.getV y := rfl
@[simp] theorem State.getV_setI (y : Nibble) (w : Word) (s : State) : (s.setI w).getV y = s.getV y := rfl
@[simp] theorem State.getV_accept (y : Nibble) (r : Byte) (s : State) : (s.accept r).getV y = s.getV y := rfl
@[simp] theorem State.getV_takeFault (y : Nibble) (f : Fault) (insn : Option Word) (s : State) :
    (takeFault f insn s).getV y = s.getV y := rfl

/-! ### Call-stack slots -/

@[simp] theorem State.slot_setV (k : Fin 16) (x : Nibble) (b : Byte) (s : State) : (s.setV x b).slot k = s.slot k := rfl
@[simp] theorem State.slot_setFlag (k : Fin 16) (c : Bool) (s : State) : (s.setFlag c).slot k = s.slot k := rfl
@[simp] theorem State.slot_setPc (k : Fin 16) (w : Word) (s : State) : (s.setPc w).slot k = s.slot k := rfl
@[simp] theorem State.slot_advancePc (k : Fin 16) (s : State) : s.advancePc.slot k = s.slot k := rfl
@[simp] theorem State.slot_setI (k : Fin 16) (w : Word) (s : State) : (s.setI w).slot k = s.slot k := rfl
@[simp] theorem State.slot_accept (k : Fin 16) (r : Byte) (s : State) : (s.accept r).slot k = s.slot k := rfl
@[simp] theorem State.slot_takeFault (k : Fin 16) (f : Fault) (insn : Option Word) (s : State) :
    (takeFault f insn s).slot k = s.slot k := rfl

/-! ### Status fields -/

@[simp] theorem State.faulted_setV (x : Nibble) (b : Byte) (s : State) : (s.setV x b).faulted = s.faulted := rfl
@[simp] theorem State.faulted_setFlag (c : Bool) (s : State) : (s.setFlag c).faulted = s.faulted := rfl
@[simp] theorem State.faulted_setPc (w : Word) (s : State) : (s.setPc w).faulted = s.faulted := rfl
@[simp] theorem State.faulted_advancePc (s : State) : s.advancePc.faulted = s.faulted := rfl
@[simp] theorem State.faulted_setI (w : Word) (s : State) : (s.setI w).faulted = s.faulted := rfl

@[simp] theorem State.faulted_accept (r : Byte) (s : State) : (s.accept r).faulted = s.faulted := by
  simp [State.faulted]

@[simp] theorem State.started_accept (r : Byte) (s : State) : (s.accept r).started = true := by
  simp [State.started]

@[simp] theorem State.finsnValid_accept (r : Byte) (s : State) : (s.accept r).finsnValid = s.finsnValid := by
  simp [State.finsnValid]

@[simp] theorem State.faulted_takeFault (f : Fault) (insn : Option Word) (s : State) :
    (takeFault f insn s).faulted = true := by
  cases insn <;> simp [State.faulted]

@[simp] theorem State.started_takeFault (f : Fault) (insn : Option Word) (s : State) :
    (takeFault f insn s).started = s.started := by
  cases insn <;> simp [State.started]

@[simp] theorem State.finsnValid_takeFault (f : Fault) (insn : Option Word) (s : State) :
    (takeFault f insn s).finsnValid = insn.isSome := by
  cases insn <;> simp [State.finsnValid]

/-- Two states are equal when every field is. -/
theorem State.ext_fields {s t : State} (hv : s.v = t.v) (hi : s.i = t.i) (hpc : s.pc = t.pc) (hsp : s.sp = t.sp)
    (hst : s.stack = t.stack) (hm : s.mem = t.mem) (hfb : s.fb = t.fb) (hir : s.ir = t.ir) (hs : s.status = t.status)
    (hc : s.fcause = t.fcause) (hp : s.fpc = t.fpc) (ha : s.faddr = t.faddr) (hn : s.finsn = t.finsn)
    (hl : s.ldstat = t.ldstat) (hr : s.rnd = t.rnd) (hx : s.rndIndex = t.rndIndex) (he : s.edgeMode = t.edgeMode) :
    s = t := by
  cases s; cases t; simp_all

/-- The register file is known by its sixteen registers. -/
theorem State.v_ext {s t : State} (h : ∀ k, s.getV k = t.getV k) : s.v = t.v := by
  apply Vector.ext
  intro n hn
  have hk := h (BitVec.ofNat 4 n)
  have hm : (BitVec.ofNat 4 n).toNat = n := by simp; omega
  simpa [State.getV, hm] using hk

end Sys2Proof.Machine
end

