-- ==== Sys2Proof/Laws/Memory.lean ====
section
/-! SUPPORT. Memory: a read after a write, and that every memory operation keeps the canonical form. -/

namespace Sys2Proof.Machine

@[simp] theorem Memory.read_nil (a : Nat) : Memory.read [] a = 0 := rfl

/-- From a canonical list, an address below all listed ones reads 0. -/
theorem Memory.read_of_lt {lo a : Nat} {m : Memory} (h : Memory.wfFrom lo m = true) (ha : a < lo) :
    Memory.read m a = 0 := by
  induction m generalizing lo with
  | nil => rfl
  | cons c m ih =>
    obtain ⟨k, b⟩ := c
    simp only [Memory.wfFrom, Bool.and_eq_true, decide_eq_true_eq] at h
    simp only [Memory.read]
    rw [if_neg (by omega)]
    exact ih h.2 (by omega)

/-- A read after a write: the byte written at its address, every other byte as before. -/
theorem Memory.read_write {lo : Nat} {m : Memory} (h : Memory.wfFrom lo m = true) (a a' : Nat) (b : Byte) :
    Memory.read (Memory.write m a b) a' = if a = a' then b else Memory.read m a' := by
  induction m generalizing lo with
  | nil =>
    unfold Memory.write
    by_cases hb : b = 0#8 <;> by_cases haa : a = a' <;> simp [hb, haa, Memory.read]
  | cons c m ih =>
    obtain ⟨k, d⟩ := c
    simp only [Memory.wfFrom, Bool.and_eq_true, decide_eq_true_eq] at h
    have hlow : ∀ e, e ≤ k → Memory.read m e = 0 := fun e he => Memory.read_of_lt h.2 (by omega)
    unfold Memory.write
    by_cases h1 : k < a
    · simp only [if_pos h1, Memory.read, ih h.2]
      by_cases h2 : k = a'
      · simp [h2]; omega
      · simp [h2]
    · by_cases h2 : k = a
      · subst h2
        by_cases hb : b = 0#8 <;> by_cases haa : k = a' <;> simp [hb, haa, Memory.read]
        subst haa; exact hlow k le_rfl
      · rw [if_neg h1, if_neg h2]
        by_cases hb : b = 0#8
        · by_cases haa : a = a'
          · subst haa; simp [hb, h2, Memory.read, hlow a (by omega)]
          · simp [hb, haa]
        · by_cases haa : a = a' <;> simp [hb, haa, Memory.read]

theorem Memory.wfFrom_mono {lo lo' : Nat} {m : Memory} (h : Memory.wfFrom lo m = true) (hl : lo' ≤ lo) :
    Memory.wfFrom lo' m = true := by
  cases m with
  | nil => rfl
  | cons c m =>
    simp only [Memory.wfFrom, Bool.and_eq_true, decide_eq_true_eq] at h ⊢
    exact ⟨⟨⟨by omega, h.1.1.2⟩, h.1.2⟩, h.2⟩

theorem Memory.wfFrom_write {lo a : Nat} {b : Byte} {m : Memory} (h : Memory.wfFrom lo m = true) (hlo : lo ≤ a)
    (ha : a < Config.memSize) : Memory.wfFrom lo (Memory.write m a b) = true := by
  induction m generalizing lo with
  | nil =>
    unfold Memory.write
    by_cases hb : b = 0#8 <;> simp [hb, Memory.wfFrom, hlo, ha]
  | cons c m ih =>
    obtain ⟨k, d⟩ := c
    have h0 := h
    simp only [Memory.wfFrom, Bool.and_eq_true, decide_eq_true_eq, bne_iff_ne, ne_eq] at h
    unfold Memory.write
    by_cases h1 : k < a
    · simp only [if_pos h1, Memory.wfFrom, Bool.and_eq_true, decide_eq_true_eq, bne_iff_ne, ne_eq]
      exact ⟨h.1, ih h.2 h1⟩
    · rw [if_neg h1]
      by_cases h2 : k = a
      · subst h2
        by_cases hb : b = 0#8
        · simpa [hb] using Memory.wfFrom_mono h.2 (by omega)
        · simp [hb, Memory.wfFrom, h.1.1.1, ha, h.2]
      · by_cases hb : b = 0#8
        · simpa [h2, hb] using h0
        · have hka : a + 1 ≤ k := by omega
          simp [h2, hb, Memory.wfFrom, hlo, ha, hka, h.1.1.2, h.1.2, h.2]

/-- A write inside memory keeps the canonical form. -/
theorem Memory.wf_write {a : Nat} {b : Byte} {m : Memory} (h : Memory.wf m = true) (ha : a < Config.memSize) :
    Memory.wf (Memory.write m a b) = true :=
  Memory.wfFrom_write h (Nat.zero_le a) ha

theorem Memory.wf_reset : Memory.wf State.reset.mem = true := rfl

/-! ### MemRead and MemWrite -/

theorem State.readByte_of_lt {a : Nat} (s : State) (h : a < 4096) : s.readByte a = .ok (Memory.read s.mem a) :=
  if_pos h

theorem State.readByte_of_ge {a : Nat} (s : State) (h : 4096 ≤ a) : s.readByte a = .error (.addressOutOfRange a) :=
  if_neg (Nat.not_lt.mpr h)

/-- What MemWrite does: it changes memory alone, and only inside it. -/
theorem State.writeByte_eq (a : Nat) (b : Byte) (s : State) :
    s.writeByte a b = { s with mem := if a < Config.memSize then Memory.write s.mem a b else s.mem } := by
  unfold State.writeByte; split <;> rfl

theorem State.wf_writeByte {a : Nat} {b : Byte} {s : State} (h : Memory.wf s.mem = true) :
    Memory.wf (s.writeByte a b).mem = true := by
  unfold State.writeByte
  split
  · exact Memory.wf_write h ‹_›
  · exact h

/-- Writing bytes keeps the canonical form. -/
theorem State.wf_writeBytes {bs : List Byte} {a : Nat} {s : State} (h : Memory.wf s.mem = true) :
    Memory.wf (s.writeBytes a bs).mem = true := by
  induction bs generalizing a s with
  | nil => exact h
  | cons b bs ih => exact ih (State.wf_writeByte h)

/-- Writing bytes changes memory alone. -/
theorem State.writeBytes_frame (bs : List Byte) (a : Nat) (s : State) :
    s.writeBytes a bs = { s with mem := (s.writeBytes a bs).mem } := by
  induction bs generalizing a s with
  | nil => rfl
  | cons b bs ih =>
    simp only [State.writeBytes]
    rw [ih (a + 1) (s.writeByte a b)]
    simp [State.writeByte_eq]

/-! ### The fetch (R102, R103) -/

theorem State.fetch_of_lt {s : State} (h : s.pc.toNat < 0xFFF) :
    s.fetch = .ok (wordOfBytes (Memory.read s.mem s.pc.toNat) (Memory.read s.mem (s.pc.toNat + 1))) := by
  simp [State.fetch, State.readByte_of_lt s (show s.pc.toNat < 4096 by omega),
    State.readByte_of_lt s (show s.pc.toNat + 1 < 4096 by omega)]

theorem State.fetch_at_last {s : State} (h : s.pc.toNat = 0xFFF) : s.fetch = .error (.addressOutOfRange 0x1000) := by
  simp [State.fetch, State.readByte, Config.memSize, h]

theorem State.fetch_of_ge {s : State} (h : 0x1000 ≤ s.pc.toNat) : s.fetch = .error (.addressOutOfRange s.pc.toNat) := by
  simp [State.fetch, State.readByte_of_ge s h]

@[simp] theorem State.fetch_accept (r : Byte) (s : State) : (s.accept r).fetch = s.fetch := rfl

/-- Writing a list of bytes: each byte at its address, every other byte as before. -/
theorem State.read_writeBytes (rom : List Byte) (a : Nat) (s : State) (h : Memory.wf s.mem = true) (hl : a + rom.length ≤ 4096) :
    (∀ k (hk : k < rom.length), Memory.read (s.writeBytes a rom).mem (a + k) = rom[k]) ∧
    (∀ b, b < a ∨ a + rom.length ≤ b → Memory.read (s.writeBytes a rom).mem b = Memory.read s.mem b) := by
  induction rom generalizing a s with
  | nil => simp [State.writeBytes]
  | cons b bs ih =>
    simp only [List.length_cons] at hl
    have ⟨i1, i2⟩ := ih (a + 1) (s.writeByte a b) (State.wf_writeByte h) (by omega)
    have hw : ∀ c, Memory.read (s.writeByte a b).mem c = if a = c then b else Memory.read s.mem c := by
      intro c; rw [State.writeByte_eq]; simp only; rw [if_pos (by unfold Config.memSize; omega)]
      exact Memory.read_write h a c b
    constructor
    · intro k hk
      cases k with
      | zero => simp only [State.writeBytes]; rw [i2 (a+0) (by omega), hw]; simp
      | succ k =>
        simp only [State.writeBytes]
        have := i1 k (by simpa using hk)
        rw [show a + (k+1) = a + 1 + k by omega, this]; simp
    · intro c hc
      simp only [List.length_cons] at hc
      simp only [State.writeBytes]
      rw [i2 c (by omega), hw, if_neg (by omega)]

/-! ### A word placed where the next step fetches (log 14) -/

/-- The word placed by `placeWord` is what the next fetch reads. -/
theorem State.fetch_placeWord {s : State} (h : Memory.wf s.mem = true) (nbits w : Nat) :
    (s.placeWord nbits w).fetch = .ok (BitVec.ofNat 16 (w % 2 ^ nbits)) := by
  unfold State.placeWord
  simp only
  generalize hp : (if s.pc.toNat + 1 < Config.memSize then s.pc else 0x200) = p
  have hlt : p.toNat + 1 < 4096 := by
    rw [← hp]
    split
    · assumption
    · decide
  generalize BitVec.ofNat 16 (w % 2 ^ nbits) = word
  have hr := (State.read_writeBytes [word.extractLsb' 8 8, word.extractLsb' 0 8] p.toNat
    { s with pc := p, status := s.status &&& 0xFE } h (by simp; omega)).1
  have h0 := hr 0 (by simp)
  have h1 := hr 1 (by simp)
  simp only [Nat.add_zero, List.getElem_cons_zero, List.getElem_cons_succ] at h0 h1
  rw [State.fetch_of_lt]
  · rw [State.writeBytes_frame] at h0 h1 ⊢
    simp only at h0 h1 ⊢
    rw [h0, h1]
    exact congrArg Except.ok (wordOfBytes_split word)
  · rw [State.writeBytes_frame]
    show p.toNat < 0xFFF
    omega

/-- After `placeWord` the core accepts a step. -/
theorem State.faulted_placeWord (s : State) (nbits w : Nat) : (s.placeWord nbits w).faulted = false := by
  unfold State.placeWord
  simp only
  rw [State.writeBytes_frame]
  simp [State.faulted]

end Sys2Proof.Machine
end

