-- ==== Sys2Proof/Laws/Ops.lean ====
section
/-! SUPPORT. What each shared operation can do: the call stack, the framebuffer, commit, and the step. -/

namespace Sys2Proof.Machine

/-! ### The call stack (R140, R142) -/

theorem State.push_of_lt {w : Word} {s : State} (h : s.sp.val < 16) :
    s.push w = .ok { s with stack := s.stack.set s.sp.val w h, sp := ⟨s.sp.val + 1, Nat.succ_lt_succ h⟩ } :=
  dif_pos h

theorem State.push_of_full {w : Word} {s : State} (h : s.sp = 16) : s.push w = .error .stackOverflow :=
  dif_neg (by rw [h]; decide)

theorem State.pop_of_empty {s : State} (h : s.sp = 0) : s.pop = .error .stackUnderflow :=
  dif_neg (by rw [h]; decide)

/-- A pop that answers reads the slot below SP and lowers SP by one. -/
theorem State.pop_of_pos {s : State} (h : 0 < s.sp.val) :
    s.pop = .ok (s.slot ⟨s.sp.val - 1, by omega⟩, { s with sp := ⟨s.sp.val - 1, by omega⟩ }) :=
  dif_pos h

/-- The slots after a push: the pushed word at the old SP, every other slot as before. -/
theorem State.slot_set_stack (s : State) (n : Nat) (hn : n < 16) (w : Word) (k : Fin 16) :
    ({ s with stack := s.stack.set n w hn } : State).slot k = if n = k.val then w else s.slot k := by
  simp [State.slot, Vector.getElem_set]

/-! ### The framebuffer (R32, R126) -/

theorem FrameBuffer.pixel_of_ge (fb : FrameBuffer) {l : Nat} (h : 2048 ≤ l) : fb.pixel l = false := by
  have : 32 ≤ l / 64 := by omega
  simp [FrameBuffer.pixel, this]

@[simp] theorem FrameBuffer.pixel_allOff (l : Nat) : FrameBuffer.allOff.pixel l = false := by
  by_cases h : l / 64 < 32 <;> simp [FrameBuffer.pixel, FrameBuffer.allOff, h]

/-- Toggling pixel l flips it and no other. -/
theorem FrameBuffer.pixel_toggle (fb : FrameBuffer) {l : Nat} (h : l < 2048) (k : Nat) :
    (fb.toggle l).pixel k = (fb.pixel k ^^ decide (l = k)) := by
  have hl : l / 64 < 32 := by omega
  by_cases hk : k / 64 = l / 64
  · have : (decide (l % 64 = k % 64)) = decide (l = k) := by
      congr 1; apply propext; constructor <;> intro <;> omega
    have hm : k % 64 < 64 := by omega
    simp [FrameBuffer.pixel, FrameBuffer.toggle, hk, hl, ← this, hm, eq_comm]
  · have hne : l ≠ k := by rintro rfl; exact hk rfl
    simp [FrameBuffer.pixel, FrameBuffer.toggle, hne, Ne.symm hk]

/-- A framebuffer is known by its 2048 pixels. -/
theorem FrameBuffer.ext_pixel {fb fb' : FrameBuffer} (h : ∀ l < 2048, fb.pixel l = fb'.pixel l) : fb = fb' := by
  apply Vector.ext
  intro y hy
  apply BitVec.eq_of_getLsbD_eq
  intro x hx
  have := h (y * 64 + x) (by omega)
  have hd : (y * 64 + x) / 64 = y := by omega
  have hm : (y * 64 + x) % 64 = x := by omega
  simpa [FrameBuffer.pixel, hd, hm, hy] using this

/-! ### commit (R109, R195) -/

@[simp] theorem commit_ok (s t : State) : commit s (.ok t) = .next t := rfl

@[simp] theorem commit_error (s : State) (f : Fault) : commit s (.error f) = .next (takeFault f (some s.ir) s) := rfl

/-- What commit can do: keep the handler's state, or take its fault on the state from before the handler. -/
theorem commit_cases {s t : State} {r : Except Fault State} (h : commit s r = .next t) :
    r = .ok t ∨ ∃ f, r = .error f ∧ t = takeFault f (some s.ir) s := by
  cases r with
  | ok u => simp only [commit_ok, Host.Outcome.next.injEq] at h; exact .inl (by rw [h])
  | error f => simp only [commit_error, Host.Outcome.next.injEq] at h; exact .inr ⟨f, rfl, h.symm⟩

/-! ### The step (R100, R101) -/

theorem stepWith_of_faulted {s : State} (rnd : Byte) (h : s.faulted = true) : stepWith rnd s = .next s := if_pos h

theorem stepWith_of_fetch_error {s : State} {f : Fault} (rnd : Byte) (hs : s.faulted = false) (h : s.fetch = .error f) :
    stepWith rnd s = .next (takeFault f none (s.accept rnd)) := by
  simp [stepWith, hs, h]

theorem stepWith_of_fetch_ok {s : State} {w : Word} (rnd : Byte) (hs : s.faulted = false) (h : s.fetch = .ok w) :
    stepWith rnd s = exec (decodeWord w) { s.accept rnd with ir := w } := by
  simp [stepWith, hs, h]

/-- What a step can do: nothing on a FAULTED core, the fetch's fault, or the instruction at pc. -/
theorem stepWith_cases (rnd : Byte) (s : State) :
    (s.faulted = true ∧ stepWith rnd s = .next s) ∨
    (s.faulted = false ∧ ∃ f, s.fetch = .error f ∧ stepWith rnd s = .next (takeFault f none (s.accept rnd))) ∨
    (s.faulted = false ∧ ∃ w, s.fetch = .ok w ∧ stepWith rnd s = exec (decodeWord w) { s.accept rnd with ir := w }) := by
  cases hs : s.faulted with
  | true => exact .inl ⟨rfl, stepWith_of_faulted rnd hs⟩
  | false =>
    cases hf : s.fetch with
    | error f => exact .inr (.inl ⟨rfl, f, rfl, stepWith_of_fetch_error rnd hs hf⟩)
    | ok w => exact .inr (.inr ⟨rfl, w, rfl, stepWith_of_fetch_ok rnd hs hf⟩)

theorem step_eq_stepWith (s : State) : step s = stepWith (Config.rndInput s.rndIndex) s := rfl

/-! ### Codes and loads (R36, R223 to R225) -/

/-- No fault has code 0, which means that none is recorded (R36). -/
theorem Fault.code_ne_zero (f : Fault) : f.code ≠ 0 := by cases f <;> simp [Fault.code]

/-- A load after the start writes only LDSTAT, with one of the two refusal codes. -/
theorem hostLoad_started {s : State} {rom} (h : s.started = true) : ∃ c, hostLoad rom s = s.setLdstat c ∧ (c = 2 ∨ c = 3) := by
  unfold hostLoad
  rw [if_pos h]
  split
  · split
    · exact ⟨2, rfl, .inl rfl⟩
    · exact ⟨3, rfl, .inr rfl⟩
  · exact ⟨3, rfl, .inr rfl⟩

/-- What a load can do: write memory, keeping its canonical form, and LDSTAT, and nothing else. -/
theorem hostLoad_cases (rom) (s : State) : ∃ c m, hostLoad rom s = { s with mem := m, ldstat := c } ∧ (c = 1 ∨ c = 2 ∨ c = 3) ∧ (Memory.wf s.mem → Memory.wf m) := by
  unfold hostLoad
  split
  · split
    · split
      · exact ⟨2, s.mem, rfl, by simp, id⟩
      · exact ⟨3, s.mem, rfl, by simp, id⟩
    · exact ⟨3, s.mem, rfl, by simp, id⟩
  · split
    · exact ⟨2, s.mem, rfl, by simp, id⟩
    · refine ⟨1, (s.writeBytes Config.progBase rom).mem, ?_, by simp, fun h => State.wf_writeBytes h⟩
      rw [State.writeBytes_frame]; rfl

end Sys2Proof.Machine
end

