-- ==== Sys2Proof/Laws/Draw.lean ====
section
/-! SUPPORT. What the sprite-drawing engine does, row by row and column by column (R125 to R127). -/

namespace Sys2Proof.Machine

/-- A target is always a pixel of the framebuffer. -/
theorem drawTarget_lt {mode : EdgeMode} {col row l : Nat} (h : drawTarget mode col row = .ok (some l)) : l < 2048 := by
  cases mode <;> simp only [drawTarget] at h
  · split at h <;> simp at h; omega
  · split at h <;> simp at h; omega
  · simp at h; omega

/-- Only SPILL raises, and only for an index beyond the array (R194). -/
theorem drawTarget_eq_error_iff (mode : EdgeMode) (col row : Nat) (f : Fault) :
    drawTarget mode col row = .error f ↔
      mode = .spill ∧ 2048 ≤ row * 64 + col ∧ f = .framebufferOutOfRange (row * 64 + col) := by
  cases mode <;> simp only [drawTarget]
  · split
    · simp; omega
    · simp; constructor
      · rintro rfl; exact ⟨by omega, rfl⟩
      · exact fun h => h.2.symm
  · split <;> simp
  · simp

/-- The three modes agree on a pixel inside the screen (R128). -/
theorem drawTarget_inside (mode : EdgeMode) {col row : Nat} (hc : col < 64) (hr : row < 32) :
    drawTarget mode col row = .ok (some (row * 64 + col)) := by
  cases mode
  · simp [drawTarget]; omega
  · simp [drawTarget, hc, hr]
  · simp [drawTarget, Nat.mod_eq_of_lt hc, Nat.mod_eq_of_lt hr]

@[simp] theorem Canvas.fb_plot (l : Nat) (cv : Canvas) : (cv.plot l).fb = cv.fb.toggle l := rfl
@[simp] theorem Canvas.collision_plot (l : Nat) (cv : Canvas) :
    (cv.plot l).collision = (cv.collision || cv.fb.pixel l) := rfl

theorem drawColumns_clear {mode : EdgeMode} {b : Byte} {xo row c : Nat} {cs : List Nat} {cv : Canvas}
    (h : spriteBit b c = false) : drawColumns mode b xo row (c :: cs) cv = drawColumns mode b xo row cs cv := by
  simp [drawColumns, h]

theorem drawColumns_set {mode : EdgeMode} {b : Byte} {xo row c : Nat} {cs : List Nat} {cv : Canvas}
    (h : spriteBit b c = true) :
    drawColumns mode b xo row (c :: cs) cv =
      match drawTarget mode (xo + c) row with
      | .error f => .error f
      | .ok none => drawColumns mode b xo row cs cv
      | .ok (some l) => drawColumns mode b xo row cs (cv.plot l) :=
  if_pos h

/-- A row that raises names the fault of one of its set bits. -/
theorem drawColumns_error {mode : EdgeMode} {b : Byte} {xo row : Nat} {cs : List Nat} {cv : Canvas} {f : Fault}
    (h : drawColumns mode b xo row cs cv = .error f) :
    ∃ c ∈ cs, spriteBit b c = true ∧ drawTarget mode (xo + c) row = .error f := by
  induction cs generalizing cv with
  | nil => cases h
  | cons c cs ih =>
    cases hb : spriteBit b c with
    | false =>
      rw [drawColumns_clear hb] at h
      obtain ⟨d, hd, hr⟩ := ih h
      exact ⟨d, List.mem_cons_of_mem _ hd, hr⟩
    | true =>
      rw [drawColumns_set hb] at h
      split at h
      · cases h; exact ⟨c, List.mem_cons_self, hb, ‹_›⟩
      · obtain ⟨d, hd, hr⟩ := ih h; exact ⟨d, List.mem_cons_of_mem _ hd, hr⟩
      · obtain ⟨d, hd, hr⟩ := ih h; exact ⟨d, List.mem_cons_of_mem _ hd, hr⟩

/-- A row completes when no set bit of it raises. -/
theorem drawColumns_ok {mode : EdgeMode} {b : Byte} {xo row : Nat} {cs : List Nat} (cv : Canvas)
    (h : ∀ c ∈ cs, spriteBit b c = true → ∀ f, drawTarget mode (xo + c) row ≠ .error f) :
    ∃ cv', drawColumns mode b xo row cs cv = .ok cv' := by
  cases hd : drawColumns mode b xo row cs cv with
  | ok cv' => exact ⟨cv', rfl⟩
  | error f =>
    obtain ⟨c, hc, hb, he⟩ := drawColumns_error hd
    exact absurd he (h c hc hb f)

/-- A sprite that raises names the first thing out of range: a row's read or a set bit (R124, R125). -/
theorem drawRows_error {s : State} {xo yo} {rs : List Nat} {cv f} (h : drawRows s xo yo rs cv = .error f) :
    ∃ r ∈ rs, (4096 ≤ rowAddr s r ∧ f = .addressOutOfRange (rowAddr s r)) ∨
      (rowAddr s r < 4096 ∧ ∃ c < 8, spriteBit (spriteByte s r) c = true ∧ drawTarget s.edgeMode (xo + c) (yo + r) = .error f) := by
  induction rs generalizing cv with
  | nil => cases h
  | cons r rs ih =>
    simp only [drawRows] at h
    by_cases hr : rowAddr s r < 4096
    · rw [State.readByte_of_lt s hr] at h
      simp only at h
      split at h
      · rename_i hd
        cases h
        obtain ⟨c, hc, hb, he⟩ := drawColumns_error hd
        exact ⟨r, List.mem_cons_self, .inr ⟨hr, c, by simpa using hc, hb, he⟩⟩
      · obtain ⟨r', hm, h'⟩ := ih h
        exact ⟨r', List.mem_cons_of_mem _ hm, h'⟩
    · rw [State.readByte_of_ge s (by omega)] at h
      cases h
      exact ⟨r, List.mem_cons_self, .inl ⟨by omega, rfl⟩⟩

/-- Rows complete when no read and no set bit of theirs raises. -/
theorem drawRows_ok_of {s : State} {x y : Nibble} {rs : List Nat} (cv)
    (h : ∀ r ∈ rs, ¬ RowOut s r ∧ ∀ c < 8, ¬ PixelOut s x y r c) :
    ∃ cv', drawRows s (originX x s) (originY y s) rs cv = .ok cv' := by
  cases hd : drawRows s (originX x s) (originY y s) rs cv with
  | ok cv' => exact ⟨cv', rfl⟩
  | error f =>
    obtain ⟨r, hr, ⟨h1, -⟩ | ⟨h1, c, hc, hb, he⟩⟩ := drawRows_error hd
    · exact absurd h1 (h r hr).1
    · rw [drawTarget_eq_error_iff] at he
      exact absurd ⟨he.1, hb, he.2.1⟩ ((h r hr).2 c hc)

/-- Rows that complete have no read and no set bit that raises. -/
theorem drawRows_ok_only {s : State} {x y : Nibble} {rs : List Nat} {cv cv'}
    (h : drawRows s (originX x s) (originY y s) rs cv = .ok cv') :
    ∀ r ∈ rs, ¬ RowOut s r ∧ ∀ c < 8, ¬ PixelOut s x y r c := by
  induction rs generalizing cv with
  | nil => simp
  | cons r rs ih =>
    simp only [drawRows] at h
    by_cases hr : rowAddr s r < 4096
    · rw [State.readByte_of_lt s hr] at h
      simp only at h
      split at h
      · cases h
      · rename_i cv1 hd
        intro r' hr'
        rcases List.mem_cons.mp hr' with rfl | hr'
        · refine ⟨by unfold RowOut; omega, fun c hc hp => ?_⟩
          have hmem : c ∈ List.range 8 := by simpa using hc
          revert hd
          generalize List.range 8 = cs at hmem
          clear ih h hr'
          induction cs generalizing cv with
          | nil => cases hmem
          | cons d cs ihc =>
            intro hd
            cases hb : spriteBit (Memory.read s.mem (rowAddr s r')) d with
            | false =>
              rw [drawColumns_clear hb] at hd
              rcases List.mem_cons.mp hmem with rfl | hm
              · have := hp.2.1; unfold spriteByte at this; simp [hb] at this
              · exact ihc hm hd
            | true =>
              rw [drawColumns_set hb] at hd
              rcases List.mem_cons.mp hmem with rfl | hm
              · rw [(drawTarget_eq_error_iff _ _ _ _).mpr ⟨hp.1, hp.2.2, rfl⟩] at hd
                cases hd
              · split at hd
                · cases hd
                · exact ihc hm hd
                · exact ihc hm hd
        · exact ih h r' hr'
    · rw [State.readByte_of_ge s (by omega)] at h
      cases h

/-- DRAW's handler completes exactly when no row read and no set bit raises (R121). -/
theorem drawHandler_ok_iff (x y n) (s : State) : (∃ t, drawHandler x y n s = .ok t) ↔ DrawOk s x y n := by
  unfold drawHandler DrawOk
  constructor
  · rintro ⟨t, h⟩
    split at h
    · cases h
    · rename_i hd
      intro r hr
      exact drawRows_ok_only hd r (by simpa using hr)
  · intro h
    obtain ⟨cv', hc⟩ := drawRows_ok_of (s := s) (x := x) (y := y) (rs := List.range n) ⟨s.fb, false⟩ (fun r hr => h r (by simpa using hr))
    rw [hc]
    exact ⟨_, rfl⟩

/-- A completed prefix of rows hands its canvas on. -/
theorem drawRows_append {s xo yo as bs cv cv'} (h : drawRows s xo yo as cv = .ok cv') :
    drawRows s xo yo (as ++ bs) cv = drawRows s xo yo bs cv' := by
  induction as generalizing cv with
  | nil => cases h; rfl
  | cons r rs ih =>
    simp only [drawRows, List.cons_append] at h ⊢
    cases hb : s.readByte (rowAddr s r) with
    | error f => rw [hb] at h; cases h
    | ok b =>
      rw [hb] at h
      simp only at h ⊢
      cases hc : drawColumns s.edgeMode b xo (yo + r) (List.range 8) cv with
      | error f => rw [hc] at h; cases h
      | ok cv1 => rw [hc] at h; exact ih h

/-- A completed prefix of columns hands its canvas on. -/
theorem drawColumns_append {m b xo row as bs cv cv'} (h : drawColumns m b xo row as cv = .ok cv') :
    drawColumns m b xo row (as ++ bs) cv = drawColumns m b xo row bs cv' := by
  induction as generalizing cv with
  | nil => cases h; rfl
  | cons c cs ih =>
    cases hb : spriteBit b c with
    | false => rw [drawColumns_clear hb] at h; rw [List.cons_append, drawColumns_clear hb]; exact ih h
    | true =>
      rw [drawColumns_set hb] at h; rw [List.cons_append, drawColumns_set hb]
      split at h
      · cases h
      · exact ih h
      · exact ih h

/-- The list of row numbers, split at a row (or of columns, at a column). -/
theorem range_split {n r : Nat} (h : r < n) : List.range n = List.range r ++ (r :: (List.range (n - r - 1)).map (· + (r+1))) := by
  have : n = r + (1 + (n - r - 1)) := by omega
  conv => lhs; rw [this, List.range_add, List.range_add]
  simp [Function.comp_def]
  intros; omega

/-! ### What a completed sprite plots -/

/-- The targets of the set bits of one row's byte, in column order. -/
def colTargets (mode : EdgeMode) (b : Byte) (xo row : Nat) (cs : List Nat) : List Nat :=
  cs.filterMap fun c => if spriteBit b c then (match drawTarget mode (xo + c) row with | .ok o => o | .error _ => none) else none

/-- The targets of the set bits of all rows, in drawing order. -/
def rowTargets (s : State) (xo yo : Nat) (rs : List Nat) : List Nat :=
  rs.flatMap fun r => colTargets s.edgeMode (spriteByte s r) xo (yo + r) (List.range 8)

/-- Plot the pixels of a list, in order. -/
def plotAll (ls : List Nat) (cv : Canvas) : Canvas := ls.foldl (fun cv l => cv.plot l) cv

/-- A row that completes plots its targets. -/
theorem drawColumns_eq {mode b xo row cs cv cv'} (h : drawColumns mode b xo row cs cv = .ok cv') :
    cv' = plotAll (colTargets mode b xo row cs) cv := by
  induction cs generalizing cv with
  | nil => cases h; rfl
  | cons c cs ih =>
    cases hb : spriteBit b c with
    | false => rw [drawColumns_clear hb] at h; rw [ih h]; simp [colTargets, hb]
    | true =>
      rw [drawColumns_set hb] at h
      split at h
      · cases h
      · rename_i ht; rw [ih h]; simp [colTargets, hb, ht]
      · rename_i ht; rw [ih h]; simp [colTargets, hb, ht, plotAll]

/-- A sprite that completes plots its targets. -/
theorem drawRows_eq {s xo yo rs cv cv'} (h : drawRows s xo yo rs cv = .ok cv') :
    cv' = plotAll (rowTargets s xo yo rs) cv := by
  induction rs generalizing cv with
  | nil => cases h; rfl
  | cons r rs ih =>
    simp only [drawRows] at h
    by_cases hr : rowAddr s r < 4096
    · rw [State.readByte_of_lt s hr] at h
      simp only at h
      split at h
      · cases h
      · rename_i hd
        rw [ih h, drawColumns_eq hd]
        simp [rowTargets, plotAll, spriteByte]
    · rw [State.readByte_of_ge s (by omega)] at h; cases h

/-- Plotting distinct pixels flips each, and there is a collision exactly when one of them was on. -/
theorem plotAll_spec (ls : List Nat) (cv : Canvas) (hn : ls.Nodup) (hb : ∀ l ∈ ls, l < 2048) :
    (∀ k, (plotAll ls cv).fb.pixel k = (cv.fb.pixel k ^^ decide (k ∈ ls))) ∧
    ((plotAll ls cv).collision = true ↔ cv.collision = true ∨ ∃ l ∈ ls, cv.fb.pixel l = true) := by
  induction ls generalizing cv with
  | nil => simp [plotAll]
  | cons l ls ih =>
    rw [List.nodup_cons] at hn
    have hl := hb l List.mem_cons_self
    have ⟨i1, i2⟩ := ih (cv.plot l) hn.2 (fun k hk => hb k (List.mem_cons_of_mem _ hk))
    change (∀ k, (plotAll ls (cv.plot l)).fb.pixel k = _) ∧ ((plotAll ls (cv.plot l)).collision = true ↔ _)
    constructor
    · intro k
      rw [i1, Canvas.fb_plot, FrameBuffer.pixel_toggle _ hl]
      by_cases hk : l = k
      · subst hk; simp [hn.1]
      · simp [hk, Ne.symm hk]
    · rw [i2]
      simp only [Canvas.collision_plot, Canvas.fb_plot, Bool.or_eq_true, List.mem_cons, exists_eq_or_imp]
      constructor
      · rintro ((h | h) | ⟨k, hk, h⟩)
        · exact .inl h
        · exact .inr (.inl h)
        · rw [FrameBuffer.pixel_toggle _ hl] at h
          have : l ≠ k := by rintro rfl; exact hn.1 hk
          exact .inr (.inr ⟨k, hk, by simpa [this] using h⟩)
      · rintro (h | h | ⟨k, hk, h⟩)
        · exact .inl (.inl h)
        · exact .inl (.inr h)
        · refine .inr ⟨k, hk, ?_⟩
          rw [FrameBuffer.pixel_toggle _ hl]
          have : l ≠ k := by rintro rfl; exact hn.1 hk
          simpa [this] using h

/-- The targets of a sprite are the pixels it covers. -/
theorem mem_rowTargets {s : State} {x y n l} : l ∈ rowTargets s (originX x s) (originY y s) (List.range n) ↔ Covers s x y n l := by
  simp only [rowTargets, colTargets, List.mem_flatMap, List.mem_range, List.mem_filterMap, Covers]
  constructor
  · rintro ⟨r, hr, c, hc, h⟩
    refine ⟨r, hr, c, hc, ?_⟩
    split at h
    · refine ⟨by assumption, ?_⟩
      split at h
      · rename_i ht; rw [ht]; simp_all
      · cases h
    · cases h
  · rintro ⟨r, hr, c, hc, hb, ht⟩
    exact ⟨r, hr, c, hc, by rw [if_pos hb, ht]⟩

/-- Rows read the memory, I and the edge mode of the state and nothing else of it: pixels inside make the modes agree. -/
theorem drawColumns_mode {m m' b xo row cs cv} (h : ∀ c ∈ cs, spriteBit b c = true → xo + c < 64 ∧ row < 32) :
    drawColumns m b xo row cs cv = drawColumns m' b xo row cs cv := by
  induction cs generalizing cv with
  | nil => rfl
  | cons c cs ih =>
    have ih := fun cv => ih (cv := cv) (fun c hc => h c (List.mem_cons_of_mem _ hc))
    cases hb : spriteBit b c with
    | false => rw [drawColumns_clear hb, drawColumns_clear hb, ih]
    | true =>
      have := h c List.mem_cons_self hb
      rw [drawColumns_set hb, drawColumns_set hb, drawTarget_inside m this.1 this.2, drawTarget_inside m' this.1 this.2]
      exact ih _

end Sys2Proof.Machine
end

