-- ==== Sys2Proof/Laws/PerInstr.lean ====
section
/-! SUPPORT. Per instruction: the decoder reads back the word the encoder writes (R77, R83). -/

namespace Sys2Proof.Laws.RoundTrip

/-- Decoding the word of a well-formed instruction gives the instruction. -/
def Statement (i : Instr) : Prop := i.WellFormed = true → decodeWord (encode i) = i

/-- The proof, one case for each constructor: the fields of the assembled word (Laws/Decode) drive the dispatch. -/
theorem each (i : Instr) : Statement i := by
  intro h
  cases i with
  | draw x y n =>
    have hn : n < 16 := by simpa [Instr.WellFormed] using h
    simp [encode, decodeWord, wordXYN_eq, Nat.mod_eq_of_lt hn]
  | _ => simp [encode, decodeWord, decodeFamily0, decodeFamily8, wordXK_eq, wordXYN_eq]

theorem clear (mid : Byte) : Statement (.clear mid) := each _
theorem ret (mid : Byte) : Statement (.ret mid) := each _
theorem nop01 (mid : Byte) : Statement (.nop01 mid) := each _
theorem nop02 (mid : Byte) : Statement (.nop02 mid) := each _
theorem nop03 (mid : Byte) : Statement (.nop03 mid) := each _
theorem nop04 (mid : Byte) : Statement (.nop04 mid) := each _
theorem nop05 (mid : Byte) : Statement (.nop05 mid) := each _
theorem nop06 (mid : Byte) : Statement (.nop06 mid) := each _
theorem nop07 (mid : Byte) : Statement (.nop07 mid) := each _
theorem nop08 (mid : Byte) : Statement (.nop08 mid) := each _
theorem nop09 (mid : Byte) : Statement (.nop09 mid) := each _
theorem nop0A (mid : Byte) : Statement (.nop0A mid) := each _
theorem nop0B (mid : Byte) : Statement (.nop0B mid) := each _
theorem nop0C (mid : Byte) : Statement (.nop0C mid) := each _
theorem nop0D (mid : Byte) : Statement (.nop0D mid) := each _
theorem nop0F (mid : Byte) : Statement (.nop0F mid) := each _
theorem jump (nnn : Addr) : Statement (.jump nnn) := each _
theorem call (nnn : Addr) : Statement (.call nnn) := each _
theorem loadIndex (nnn : Addr) : Statement (.loadIndex nnn) := each _
theorem jumpOffset (nnn : Addr) : Statement (.jumpOffset nnn) := each _
theorem nopE (rest : Addr) : Statement (.nopE rest) := each _
theorem nopF (rest : Addr) : Statement (.nopF rest) := each _
theorem skipEqImm (x : Nibble) (nn : Byte) : Statement (.skipEqImm x nn) := each _
theorem skipNeImm (x : Nibble) (nn : Byte) : Statement (.skipNeImm x nn) := each _
theorem loadImm (x : Nibble) (nn : Byte) : Statement (.loadImm x nn) := each _
theorem addImm (x : Nibble) (nn : Byte) : Statement (.addImm x nn) := each _
theorem random (x : Nibble) (nn : Byte) : Statement (.random x nn) := each _
theorem skipEqReg (x y low : Nibble) : Statement (.skipEqReg x y low) := each _
theorem skipNeReg (x y low : Nibble) : Statement (.skipNeReg x y low) := each _
theorem move (x y : Nibble) : Statement (.move x y) := each _
theorem or (x y : Nibble) : Statement (.or x y) := each _
theorem and (x y : Nibble) : Statement (.and x y) := each _
theorem xor (x y : Nibble) : Statement (.xor x y) := each _
theorem addCarry (x y : Nibble) : Statement (.addCarry x y) := each _
theorem subBorrow (x y : Nibble) : Statement (.subBorrow x y) := each _
theorem nop86 (x y : Nibble) : Statement (.nop86 x y) := each _
theorem nop87 (x y : Nibble) : Statement (.nop87 x y) := each _
theorem nop88 (x y : Nibble) : Statement (.nop88 x y) := each _
theorem nop89 (x y : Nibble) : Statement (.nop89 x y) := each _
theorem nop8A (x y : Nibble) : Statement (.nop8A x y) := each _
theorem nop8B (x y : Nibble) : Statement (.nop8B x y) := each _
theorem nop8C (x y : Nibble) : Statement (.nop8C x y) := each _
theorem nop8D (x y : Nibble) : Statement (.nop8D x y) := each _
theorem nop8E (x y : Nibble) : Statement (.nop8E x y) := each _
theorem nop8F (x y : Nibble) : Statement (.nop8F x y) := each _
theorem draw (x y : Nibble) (n : Nat) : Statement (.draw x y n) := each _

end Sys2Proof.Laws.RoundTrip
end

