-- ==== Sys2Proof/Tests/Slice0.lean ====
section
/-! SUPPORT. Tests. Expected results are the vectors of spec/95_test_vectors.md (their ids are named) or are read off the
encodings of R83. Then one witness for every statement that has hypotheses. -/

namespace Sys2Proof.Tests

open Sys2Proof.Machine

/-! ## Helpers -/

/-- The reset state with some registers set. -/
def regs (l : List (Nibble × Byte)) : State := l.foldl (fun s p => s.setV p.1 p.2) State.reset

/-- The framebuffer with these pixels (x, y) on. -/
def lit (l : List (Nat × Nat)) : FrameBuffer := l.foldl (fun fb p => fb.toggle (p.2 * 64 + p.1)) FrameBuffer.allOff

/-- A state with I and the bytes at I, for DRAW. -/
def sprite (i : Word) (bytes : List Byte) (s : State) : State := (s.setI i).writeBytes i.toNat bytes

/-- The state an outcome leaves; the reset state where it is no next state. -/
def after : Host.Outcome State Fault Refusal → State
  | .next t => t
  | _ => State.reset

/-- The outcome is this next state. -/
def isNext : Host.Outcome State Fault Refusal → State → Bool
  | .next u, t => decide (u = t)
  | _, _ => false

theorem eq_next {o : Host.Outcome State Fault Refusal} {t : State} (h : isNext o t = true) : o = .next t := by
  cases o with
  | next u => rw [of_decide_eq_true h]
  | _ => cases h

/-- Place the word where the next step fetches and run one step with `rnd`. -/
def runWith (rnd : Byte) (w : Nat) (s : State) : State := after (stepWith rnd (s.withFetchWord 16 w))

/-- The same with `rnd` = 0. -/
def run (w : Nat) (s : State) : State := runWith 0 w s

/-- The state right after the fetch of `w` at pc, which `exec` is given. -/
def fetched (w : Word) (s : State) : State := { s with ir := w, status := s.status ||| 0x02 }

/-- The fault record: FCAUSE, FPC, FADDR, FINSN, STATUS (FAULTED 1, STARTED 2, FINSN_VALID 4). -/
def record (s : State) : Byte × Word × Word × Word × Byte := (s.fcause, s.fpc, s.faddr, s.finsn, s.status)

/-- The reset state with SP = n and S[k] = 0x300 + 2k. -/
def stacked (n : Fin 17) : State :=
  { State.reset with sp := n, stack := Vector.ofFn fun k : Fin 16 => BitVec.ofNat 16 (0x300 + 2 * k.val) }

/-! ## Well-formedness: one ill-formed term per check, and the largest well-formed one -/

theorem test_wf_draw_count_refused : (Instr.draw 0x0 0x0 16).WellFormed = false := by decide
theorem test_wf_draw_count_largest : (Instr.draw 0xF 0xF 15).WellFormed = true := by decide

/-! ## Decoding: words written out bit by bit from R77, R79 to R83 and R87 -/

/-- Family 0 looks at bits 3:0 alone (R79): CLEAR and RETURN. -/
theorem test_decode_family0 :
    decodeWord 0b0000_00001110_0000 = .clear 0x0E ∧ decodeWord 0b0000_00000000_0000 = .clear 0x00 ∧
    decodeWord 0b0000_00001110_1110 = .ret 0x0E ∧ decodeWord 0b0000_11111111_1110 = .ret 0xFF := by decide

/-- The unmapped functions of family 0. -/
theorem test_decode_family0_nop :
    decodeWord 0b0000_00001110_0001 = .nop01 0x0E ∧ decodeWord 0b0000_00001110_0010 = .nop02 0x0E ∧
    decodeWord 0b0000_00001110_0011 = .nop03 0x0E ∧ decodeWord 0b0000_00001110_0100 = .nop04 0x0E ∧
    decodeWord 0b0000_00001110_0101 = .nop05 0x0E ∧ decodeWord 0b0000_00001110_0110 = .nop06 0x0E ∧
    decodeWord 0b0000_00001110_0111 = .nop07 0x0E ∧ decodeWord 0b0000_00001110_1000 = .nop08 0x0E ∧
    decodeWord 0b0000_00001110_1001 = .nop09 0x0E ∧ decodeWord 0b0000_00001110_1010 = .nop0A 0x0E ∧
    decodeWord 0b0000_00001110_1011 = .nop0B 0x0E ∧ decodeWord 0b0000_00001110_1100 = .nop0C 0x0E ∧
    decodeWord 0b0000_00001110_1101 = .nop0D 0x0E ∧ decodeWord 0b0000_00001110_1111 = .nop0F 0x0E := by decide

/-- Format A: families 1, 2, A, B. -/
theorem test_decode_format_a :
    decodeWord 0b0001_101010111100 = .jump 0xABC ∧ decodeWord 0b0010_001100000000 = .call 0x300 ∧
    decodeWord 0b1010_000100100011 = .loadIndex 0x123 ∧ decodeWord 0b1011_111111111111 = .jumpOffset 0xFFF := by decide

/-- Format XK: families 3, 4, 6, 7, C. -/
theorem test_decode_format_xk :
    decodeWord 0b0011_1010_00111100 = .skipEqImm 0xA 0x3C ∧ decodeWord 0b0100_1010_00111100 = .skipNeImm 0xA 0x3C ∧
    decodeWord 0b0110_1010_00111100 = .loadImm 0xA 0x3C ∧ decodeWord 0b0111_0011_00000101 = .addImm 0x3 0x05 ∧
    decodeWord 0b1100_0011_00001111 = .random 0x3 0x0F := by decide

/-- Formats XY and XYN: families 5, 9, D. -/
theorem test_decode_format_xyn :
    decodeWord 0b0101_0001_0010_0111 = .skipEqReg 0x1 0x2 0x7 ∧
    decodeWord 0b1001_0001_0010_1111 = .skipNeReg 0x1 0x2 0xF ∧
    decodeWord 0b1101_0001_0010_0101 = .draw 0x1 0x2 5 ∧ decodeWord 0b1101_1111_0000_1111 = .draw 0xF 0x0 15 := by decide

/-- Format XYF: the functions of family 8 (R80). -/
theorem test_decode_family8 :
    decodeWord 0b1000_0001_0010_0000 = .move 0x1 0x2 ∧ decodeWord 0b1000_0001_0010_0001 = .or 0x1 0x2 ∧
    decodeWord 0b1000_0001_0010_0010 = .and 0x1 0x2 ∧ decodeWord 0b1000_0001_0010_0011 = .xor 0x1 0x2 ∧
    decodeWord 0b1000_0001_0010_0100 = .addCarry 0x1 0x2 ∧ decodeWord 0b1000_0001_0010_0101 = .subBorrow 0x1 0x2 := by
  decide

/-- The unmapped functions of family 8. -/
theorem test_decode_family8_nop :
    decodeWord 0b1000_0001_0010_0110 = .nop86 0x1 0x2 ∧ decodeWord 0b1000_0001_0010_0111 = .nop87 0x1 0x2 ∧
    decodeWord 0b1000_0001_0010_1000 = .nop88 0x1 0x2 ∧ decodeWord 0b1000_0001_0010_1001 = .nop89 0x1 0x2 ∧
    decodeWord 0b1000_0001_0010_1010 = .nop8A 0x1 0x2 ∧ decodeWord 0b1000_0001_0010_1011 = .nop8B 0x1 0x2 ∧
    decodeWord 0b1000_0001_0010_1100 = .nop8C 0x1 0x2 ∧ decodeWord 0b1000_0001_0010_1101 = .nop8D 0x1 0x2 ∧
    decodeWord 0b1000_0001_0010_1110 = .nop8E 0x1 0x2 ∧ decodeWord 0b1000_0001_0010_1111 = .nop8F 0x1 0x2 := by decide

/-- Families E and F are unmapped whatever follows (R82). -/
theorem test_decode_families_ef :
    decodeWord 0b1110_000010011110 = .nopE 0x09E ∧ decodeWord 0b1111_111111111111 = .nopF 0xFFF := by decide

/-- Big-endian (R53), through the opcode table's numbering; a byte short is refused by name. -/
theorem test_decode_bytes :
    decode [0x6A, 0x3C, 0x99] = .ok (.loadImm 0xA 0x3C, [0x99]) ∧ decode [0x6A] = .error .truncated ∧
    decodeTableWord 16 0x6A3C = some (.loadImm 0xA 0x3C) := by decide

/-! ## Fetch, advance, NOP -/

theorem test_FE3 : run 0x8126 (regs [(1, 3), (2, 4)]) =
    { (fetched 0x8126 (regs [(1, 3), (2, 4)])) with pc := 0x202, mem := [(0x200, 0x81), (0x201, 0x26)], rndIndex := 1 } := by
  decide
theorem test_FE2_FE4_FE5_FE6 : (run 0x000F State.reset).pc = 0x202 ∧ (run 0x812F State.reset).pc = 0x202 ∧
    (run 0xE09E State.reset).pc = 0x202 ∧ (run 0xFFFF State.reset).pc = 0x202 := by decide
theorem test_FE7 : (run 0x3000 (State.reset.setPc 0xFFC)).pc = 0x1000 := by decide
theorem test_FE8 : (run 0x1234 (State.reset.setPc 0xFFE)).pc = 0x234 := by decide
theorem test_FE9 : record (after (stepWith 0 ((State.reset.setPc 0xFFF).writeByte 0xFFF 0x12))) = (1, 0xFFF, 0x1000, 0, 3) := by
  decide
theorem test_FE10 : record (after (stepWith 0 (State.reset.setPc 0x1000))) = (1, 0x1000, 0x1000, 0, 3) := by decide
theorem test_FE11 : record (after (stepWith 0 (State.reset.setPc 0x10FE))) = (1, 0x10FE, 0x10FE, 0, 3) := by decide
theorem test_FE12 : stepWith 0x77 (after (stepWith 0 (State.reset.setPc 0x1000))) =
    .next (after (stepWith 0 (State.reset.setPc 0x1000))) := eq_next (by decide)
theorem test_FE13 : (run 0x6A3C (State.reset.setPc 0x201)).getV 0xA = 0x3C ∧
    (run 0x6A3C (State.reset.setPc 0x201)).pc = 0x203 := by decide

/-! ## Display -/

theorem test_DR1 : (run 0x00E0 { regs [(0xF, 1)] with fb := lit [(0, 0), (36, 1), (63, 31)] }).fb = lit [] ∧
    (run 0x00E0 { regs [(0xF, 1)] with fb := lit [(0, 0), (36, 1), (63, 31)] }).getV 0xF = 1 := by decide
theorem test_DR2 : (run 0x0120 { State.reset with fb := lit [(5, 0)] }).fb = lit [] := by decide

/-- DR6: two rows, bit 7 the leftmost. -/
def stateDR6 : State := run 0xD012 (sprite 0x300 [0x81, 0x42] (regs [(0, 2), (1, 3)]))
theorem test_DR6 : stateDR6.fb = lit [(2, 3), (9, 3), (3, 4), (8, 4)] ∧ stateDR6.getV 0xF = 0 := by decide

/-- DR18: a collision on one pixel, and VF 1 whatever it was. -/
def stateDR18 : State := run 0xD011 { sprite 0x300 [0xC0] (regs [(0, 4), (0xF, 7)]) with fb := lit [(5, 0)] }
theorem test_DR18 : stateDR18.fb = lit [(4, 0)] ∧ stateDR18.getV 0xF = 1 := by decide

/-! ## Control flow -/

theorem test_CF1 : (run 0x1ABC State.reset).pc = 0xABC := by decide
theorem test_CF4 : (run 0x2400 (stacked 15)).slot 15 = 0x202 ∧ (run 0x2400 (stacked 15)).sp = 16 ∧
    (run 0x2400 (stacked 15)).pc = 0x400 := by decide
theorem test_CF5 : record (run 0x2400 (stacked 16)) = (2, 0x200, 16, 0x2400, 7) ∧ (run 0x2400 (stacked 16)).sp = 16 := by
  decide
theorem test_CF7 : (run 0x00EE (stacked 16)).pc = 0x31E ∧ (run 0x00EE (stacked 16)).sp = 15 := by decide
theorem test_CF8 : record (run 0x00EE State.reset) = (3, 0x200, 0, 0x00EE, 7) := by decide
theorem test_CF10_CF11 : (run 0x3A3C (regs [(0xA, 0x3C)])).pc = 0x204 ∧ (run 0x3A3C (regs [(0xA, 0x3D)])).pc = 0x202 := by
  decide
theorem test_CF12_CF13 : (run 0x4A3C (regs [(0xA, 0x3C)])).pc = 0x202 ∧ (run 0x4A3C (regs [(0xA, 0x3D)])).pc = 0x204 := by
  decide
theorem test_CF15_CF16 : (run 0x5127 (regs [(1, 7), (2, 7)])).pc = 0x204 ∧
    (run 0x5120 (regs [(1, 7), (2, 8)])).pc = 0x202 := by decide
theorem test_CF19_CF20 : (run 0x9120 (regs [(1, 7), (2, 7)])).pc = 0x202 ∧
    (run 0x912F (regs [(1, 7), (2, 8)])).pc = 0x204 := by decide
theorem test_CF22 : (run 0xBFFF (regs [(0, 0xFF)])).pc = 0x10FE := by decide

/-! ## Loads, arithmetic and logic -/

theorem test_AL1 : (run 0x6A3C State.reset).getV 0xA = 0x3C := by decide
theorem test_AL2 : (run 0x7A01 (regs [(0xA, 0xFF)])).getV 0xA = 0 ∧ (run 0x7A01 (regs [(0xA, 0xFF)])).getV 0xF = 0 := by
  decide
theorem test_AL3 : (run 0x7F01 (regs [(0xF, 0xFF)])).getV 0xF = 0 := by decide
theorem test_AL5 : (run 0x8120 (regs [(1, 5), (2, 9)])).getV 1 = 9 := by decide
theorem test_AL6 : (run 0x8121 (regs [(1, 0xF0), (2, 0x0F), (0xF, 7)])).getV 1 = 0xFF ∧
    (run 0x8121 (regs [(1, 0xF0), (2, 0x0F), (0xF, 7)])).getV 0xF = 7 := by decide
theorem test_AL7 : (run 0x8122 (regs [(1, 0xF0), (2, 0x3C)])).getV 1 = 0x30 := by decide
theorem test_AL8 : (run 0x8123 (regs [(1, 0xFF), (2, 0x0F)])).getV 1 = 0xF0 := by decide
theorem test_AL14 : (run 0x8F14 (regs [(0xF, 0xFF), (1, 1)])).getV 0xF = 0 := by decide
theorem test_AL15 : (run 0x81F4 (regs [(1, 0xFF), (0xF, 1)])).getV 1 = 0 ∧
    (run 0x81F4 (regs [(1, 0xFF), (0xF, 1)])).getV 0xF = 1 := by decide
theorem test_AL21 : (run 0x8F25 (regs [(0xF, 5), (2, 3)])).getV 0xF = 0xFE := by decide
theorem test_AL22 : (run 0x81F5 (regs [(1, 5), (0xF, 3)])).getV 1 = 4 ∧
    (run 0x81F5 (regs [(1, 5), (0xF, 3)])).getV 0xF = 1 := by decide
theorem test_AL26 : (run 0xAFFF (State.reset.setI 5)).i = 0xFFF := by decide
theorem test_AL27 : (runWith 0xAB 0xC30F State.reset).getV 3 = 0x0B := by decide
theorem test_AL29 : (runWith 0x5A 0xCFFF State.reset).getV 0xF = 0x5A := by decide

/-! ## Load -/

theorem test_LD2 : hostLoad (List.replicate 3585 0xFF) State.reset = { State.reset with ldstat := 2 } := by
  have hl : (List.replicate 3585 (0xFF : Byte)).length = 3585 := List.length_replicate
  unfold hostLoad
  rw [hl]
  rfl
theorem test_LD3 : hostLoad [0x11, 0x22] (run 0x00E0 State.reset) = { (run 0x00E0 State.reset) with ldstat := 3 } := by decide
theorem test_LD5 : hostLoad [0x44] (hostLoad [0x11, 0x22, 0x33] State.reset) =
    { State.reset with mem := [(0x200, 0x44), (0x201, 0x22), (0x202, 0x33)], ldstat := 1 } := by decide

/-! ## The word placed for the host runs as the very next step -/

theorem test_withFetchWord : (after (step (State.reset.withFetchWord 16 0x6A3C))).getV 0xA = 0x3C := rfl

/-! ## Witnesses: for every statement with hypotheses, a state and operands that meet them, at boundary values -/

theorem test_witness_DecodeEncodeRoundTrip : (Instr.draw 0xF 0x0 15).WellFormed = true ∧ (Instr.clear 0xFF).WellFormed = true := by
  decide

theorem test_witness_UnmappedWordsExecuteNop :
    (fieldF (0x0001 : Word) = 0x0 ∧ fieldN (0x0001 : Word) ≠ 0x0 ∧ fieldN (0x0001 : Word) ≠ 0xE) ∧
    (fieldF (0x8006 : Word) = 0x8 ∧ 6 ≤ (fieldN (0x8006 : Word)).toNat) ∧
    (fieldF (0x800F : Word) = 0x8 ∧ 6 ≤ (fieldN (0x800F : Word)).toNat) ∧
    fieldF (0xE000 : Word) = 0xE ∧ fieldF (0xFFFF : Word) = 0xF := by decide

/-- At pc = 0xFFE, the last address a fetch can use. -/
def lastFetch : State := (State.reset.setPc 0xFFE).writeBytes 0xFFE [0x12, 0x34]

theorem test_witness_StepRunsDecodedInstruction :
    lastFetch.faulted = false ∧ lastFetch.pc.toNat < 0xFFF ∧ Memory.read lastFetch.mem lastFetch.pc.toNat = 0x12 ∧
    Memory.read lastFetch.mem (lastFetch.pc.toNat + 1) = 0x34 ∧ decode [0x12, 0x34] = .ok (.jump 0x234, []) := by decide

theorem test_witness_FetchFaultsAtEndOfMemory :
    (State.reset.setPc 0xFFF).faulted = false ∧ 0xFFF ≤ (State.reset.setPc 0xFFF).pc.toNat ∧
    0x1000 ≤ (State.reset.setPc 0x1000).pc.toNat ∧ lastFetch.pc.toNat ≤ 0xFFE := by decide

/-- RETURN at SP = 0: a FAULTED core. -/
def faultedCore : State := run 0x00EE State.reset

theorem test_witness_FaultedUntilReset : faultedCore.faulted = true ∧ (Transaction.load [0x44]) ≠ .reset ∧
    Transaction.step 0x01 ≠ .reset := by decide

/-- After one DONE step. -/
def startedCore : State := run 0x00E0 State.reset

theorem test_witness_StartedUntilReset :
    (State.reset.faulted = false ∧ stepWith 0 (State.reset.withFetchWord 16 0x00E0) = .next startedCore) ∧
    (startedCore.started = true ∧ transact (.load [0x44]) startedCore = .next (hostLoad [0x44] startedCore)) :=
  ⟨⟨by decide, eq_next (by decide)⟩, by decide, rfl⟩

theorem test_witness_FaultedStepCommitsNothing :
    (State.reset.withFetchWord 16 0x00EE).faulted = false ∧
    stepWith 0 (State.reset.withFetchWord 16 0x00EE) = .next faultedCore ∧ faultedCore.faulted = true ∧
    faultedCore.finsnValid = true := ⟨by decide, eq_next (by decide), by decide, by decide⟩

theorem test_witness_FaultedStepCommitsNothing_fetch :
    (State.reset.setPc 0x1000).faulted = false ∧
    (after (stepWith 0 (State.reset.setPc 0x1000))).faulted = true ∧
    (after (stepWith 0 (State.reset.setPc 0x1000))).finsnValid = false := by decide

theorem test_witness_FaultEntryRecords : (fetched 0x00EE State.reset).faulted = false := by decide

/-- The causes of R190 as the vectors CF5 (overflow), CF8 (underflow), DR15 (address) and DR13 (pixel) record them. -/
theorem test_fault_codes_and_values :
    ([.stackOverflow, .stackUnderflow, .addressOutOfRange 0x1000, .framebufferOutOfRange 2048].map fun f =>
      ((takeFault f (some 0) State.reset).fcause, (takeFault f (some 0) State.reset).faddr)) =
      [(2, 16), (3, 0), (1, 0x1000), (4, 0x800)] := by decide

/-- The three fault conditions of R192 to R194 and R124, on running cores. -/
theorem test_witness_OnlyListedConditionsFault :
    Running (stacked 16) ∧ HandlerFaults (.call 0x400) (stacked 16) ∧ ¬ HandlerFaults (.call 0x400) (stacked 15) ∧
    HandlerFaults (.ret 0x0E) (stacked 0) ∧ ¬ HandlerFaults (.ret 0x0E) (stacked 1) ∧
    ¬ HandlerFaults (.jump 0xFFF) (stacked 16) := by
  unfold Running
  refine ⟨by decide, rfl, ?_, rfl, ?_, id⟩
  · show ¬ (stacked 15).sp = 16
    decide
  · show ¬ (stacked 1).sp = 0
    decide

/-- At an idle end: 0x1200 at 0x200, after one step (CF2). -/
def idle : State := run 0x1200 State.reset

theorem idle_inv : Inv idle where
  memory := by decide
  index := by decide
  counter := by decide
  slots := by decide
  reserved := by decide
  cause := by decide
  result := by decide
  fault := by decide
  noFault := by decide

/-- A FAULTED core meets the invariant too. -/
theorem faultedCore_inv : Inv faultedCore where
  memory := by decide
  index := by decide
  counter := by decide
  slots := by decide
  reserved := by decide
  cause := by decide
  result := by decide
  fault := by decide
  noFault := by decide

theorem test_witness_StepKeepsInvariant : Inv idle ∧ Inv faultedCore ∧ (∃ t, step idle = .next t) ∧
    step faultedCore = .next faultedCore := ⟨idle_inv, faultedCore_inv, ⟨_, rfl⟩, rfl⟩

theorem test_witness_TransactionKeepsInvariant : Inv idle ∧ transact (.step 0) idle = .next (after (stepWith 0 idle)) ∧
    transact .reset idle = .next (hostReset idle) ∧ transact (.load []) idle = .next (hostLoad [] idle) :=
  ⟨idle_inv, eq_next (by decide), rfl, rfl⟩

theorem test_witness_MemoryConstantAfterStart :
    exec (.loadImm 0xA 0x3C) startedCore = .next (after (exec (.loadImm 0xA 0x3C) startedCore)) ∧
    startedCore.started = true ∧ transact (.step 0) startedCore = .next (after (stepWith 0 startedCore)) ∧
    transact (.load [0x44]) startedCore = .next (hostLoad [0x44] startedCore) :=
  ⟨eq_next (by decide), by decide, eq_next (by decide), rfl⟩

/-- The longest ROM that is accepted, and the next longer one. -/
theorem test_witness_LoadCopiesRom : Memory.wf State.reset.mem = true ∧ State.reset.started = false ∧
    (List.replicate 3584 (0xFF : Byte)).length ≤ 3584 ∧ ([0xA2, 0x0A, 0x60] : List Byte).length ≤ 3584 := by
  refine ⟨by decide, by decide, ?_, by decide⟩
  rw [List.length_replicate]

theorem test_witness_RefusedLoadWritesNothing : State.reset.started = false ∧ startedCore.started = true ∧
    3584 < (List.replicate 3585 (0xFF : Byte)).length ∧ (List.replicate 3584 (0xFF : Byte)).length ≤ 3584 := by
  refine ⟨by decide, by decide, ?_, ?_⟩ <;> rw [List.length_replicate]
  decide

/-! ### DRAW -/

/-- DR8: the row spills to the next one. -/
def drawSpill : State := sprite 0x300 [0xFF] (regs [(0, 60)])

/-- DR5: a collision at (0, 0). -/
def drawCollision : State := { sprite 0x300 [0xFF] State.reset with fb := lit [(0, 0)] }

theorem test_witness_DrawFlipsCoveredPixels : DrawOk drawSpill 0x0 0x1 1 ∧ Covers drawSpill 0x0 0x1 1 67 ∧
    (¬ ∃ l, Covers drawSpill 0x0 0x1 1 l ∧ drawSpill.fb.pixel l = true) := by
  refine ⟨by unfold DrawOk RowOut PixelOut; decide, by unfold Covers; decide, ?_⟩
  rintro ⟨l, -, h⟩
  rw [show drawSpill.fb = FrameBuffer.allOff from rfl, FrameBuffer.pixel_allOff] at h
  cases h

theorem test_witness_DrawFlipsCoveredPixels_collision : DrawOk drawCollision 0x0 0x1 1 ∧
    ∃ l, Covers drawCollision 0x0 0x1 1 l ∧ drawCollision.fb.pixel l = true := by
  refine ⟨by unfold DrawOk RowOut PixelOut; decide, 0, by unfold Covers; decide, by decide⟩

/-- DR8, carried out. -/
theorem test_DR8 : (run 0xD011 drawSpill).fb =
    lit [(60, 0), (61, 0), (62, 0), (63, 0), (0, 1), (1, 1), (2, 1), (3, 1)] := by decide

theorem test_witness_SpriteTargetsAreDistinct : drawTarget .spill (63 + 7) (0 + 14) = .ok (some 966) ∧
    drawTarget .clip (56 + 7) (17 + 14) = .ok (some 2047) ∧ drawTarget .wrap (63 + 7) (31 + 14) = .ok (some 838) := by decide

/-- Both sides of each bound of R127's formulas: bits 7 and 0, L = 2047 and 2048, columns 63 and 64, rows 31 and 32. -/
theorem test_witness_SpriteBitsAndTargetsFollowFormulas :
    ((0x80 : Byte) &&& ((0x80 : Byte) >>> 0) ≠ 0) ∧ ((0x01 : Byte) &&& ((0x80 : Byte) >>> 7) ≠ 0) ∧
    31 * 64 + 63 < 2048 ∧ 2048 ≤ 31 * 64 + 64 ∧ 2048 ≤ 32 * 64 + 0 ∧ (63 < 64 ∧ 31 < 32) ∧ 64 ≤ 64 ∧ 32 ≤ 32 := by decide

/-- DR8: in SPILL the pixel of bit 0 lands at (3, 1), L = 67. -/
theorem test_witness_DrawFollowsFormulas : (∀ r < 1, drawSpill.i.toNat + r < 4096) ∧ drawSpill.edgeMode = .spill ∧
    (∀ r < 1, ∀ c < 8, SpriteSet drawSpill r c →
      ((drawSpill.getV 0x1).toNat % 32 + r) * 64 + ((drawSpill.getV 0x0).toNat % 64 + c) < 2048) ∧
    DrawPlots drawSpill 0x0 0x1 1 67 := by
  refine ⟨by decide, rfl, by unfold SpriteSet; decide, 0, by decide, 7, by decide, ?_, rfl, by decide⟩
  unfold SpriteSet
  decide

/-- DR5: the pixel of bit 7, at L = 0, was on. -/
theorem test_witness_DrawFollowsFormulas_collision : (∀ r < 1, drawCollision.i.toNat + r < 4096) ∧
    ∃ l, DrawPlots drawCollision 0x0 0x1 1 l ∧ drawCollision.fb.pixel l = true := by
  refine ⟨by decide, 0, ⟨0, by decide, 0, by decide, ?_, rfl, by decide⟩, by decide⟩
  unfold SpriteSet
  decide

/-- DR15: rows 0 and 1 are the last two bytes of memory, row 2 is beyond it. -/
def drawRowOut : State := sprite 0xFFE [0x80, 0x80] (regs [(0xF, 1)])

theorem test_witness_DrawFaultsOnRowBeyondMemory : RowOut drawRowOut 2 ∧ DrawOk drawRowOut 0x0 0x0 2 := by
  refine ⟨by unfold RowOut; decide, by unfold DrawOk RowOut PixelOut; decide⟩

theorem test_DR15 : record (run 0xD003 drawRowOut) = (1, 0x200, 0x1000, 0xD003, 7) ∧
    (run 0xD003 drawRowOut).getV 0xF = 1 ∧ (run 0xD003 drawRowOut).fb = lit [] := by decide

/-- DR20: in row 0, bit 4 is the first beyond the array; row 1 would be beyond memory. -/
def drawPixelOut : State := sprite 0xFFF [0xFF] (regs [(0, 60), (1, 31)])

theorem test_witness_DrawFaultsOnPixelBeyondArray : DrawOk drawPixelOut 0x0 0x1 0 ∧ ¬ RowOut drawPixelOut 0 ∧
    PixelOut drawPixelOut 0x0 0x1 0 4 ∧ ∀ d < 4, ¬ PixelOut drawPixelOut 0x0 0x1 0 d := by
  refine ⟨fun r hr => absurd hr (Nat.not_lt_zero r), by unfold RowOut; decide, by unfold PixelOut; decide, by unfold PixelOut; decide⟩

/-- DR12: in WRAP the pixel of bit 0 lands at (3, 31), L = 1987; in CLIP (DR11) nothing does. -/
theorem test_witness_DrawFollowsFormulas_edges :
    DrawPlots { drawPixelOut with edgeMode := .wrap } 0x0 0x1 1 1987 ∧
    ¬ PlotsAt .clip (60 + 7) (31 + 0) 1987 ∧ PlotsAt .clip (60 + 3) (31 + 0) 2047 := by
  refine ⟨⟨0, by decide, 7, by decide, ?_, rfl⟩, ?_, ?_⟩
  · unfold SpriteSet
    decide
  · unfold PlotsAt
    decide
  · unfold PlotsAt
    decide

theorem test_DR20 : record (run 0xD012 drawPixelOut) = (4, 0x200, 0x800, 0xD012, 7) := by decide

/-- DR13: row 1, bit 0, is exactly pixel 2048. -/
def drawPixelOutRow : State := sprite 0x300 [0x80, 0x80] (regs [(1, 31)])

theorem test_witness_DrawFaultsOnPixelBeyondArray_row : DrawOk drawPixelOutRow 0x0 0x1 1 ∧
    PixelOut drawPixelOutRow 0x0 0x1 1 0 := by
  refine ⟨by unfold DrawOk RowOut PixelOut; decide, by unfold PixelOut; decide⟩

/-- A sprite in the last corner of the screen, inside it. -/
def drawCorner : State := sprite 0x300 [0xFF] (regs [(0, 56), (1, 31)])

theorem test_witness_EdgeModesAgreeInside :
    (∀ r < 1, ∀ c < 8, spriteBit (spriteByte drawCorner r) c = true →
      originX 0x0 drawCorner + c < 64 ∧ originY 0x1 drawCorner + r < 32) ∧
    ∃ t, exec (.draw 0x0 0x1 1) { drawCorner with edgeMode := .clip } = .next t ∧ t.faulted = false := by
  refine ⟨by decide, after (exec (.draw 0x0 0x1 1) { drawCorner with edgeMode := .clip }), eq_next (by decide), by decide⟩

/-- A row beyond memory, in CLIP. -/
def drawClipRowOut : State := { sprite 0xFFF [0xFF] (regs [(0, 60), (1, 31)]) with edgeMode := .clip }

theorem test_witness_OnlySpillFaultsOnPixels : Running drawClipRowOut ∧ drawClipRowOut.edgeMode ≠ .spill ∧
    ∃ t, exec (.draw 0x0 0x1 2) drawClipRowOut = .next t ∧ t.faulted = true := by
  refine ⟨by unfold Running; decide, by decide, after (exec (.draw 0x0 0x1 2) drawClipRowOut), eq_next (by decide), by decide⟩

/-- DR11 and DR12. -/
theorem test_DR11_DR12 :
    (run 0xD011 { sprite 0x300 [0xFF] (regs [(0, 60), (1, 31)]) with edgeMode := .clip }).fb =
      lit [(60, 31), (61, 31), (62, 31), (63, 31)] ∧
    (run 0xD011 { sprite 0x300 [0xFF] (regs [(0, 60), (1, 31)]) with edgeMode := .wrap }).fb =
      lit [(60, 31), (61, 31), (62, 31), (63, 31), (0, 31), (1, 31), (2, 31), (3, 31)] := by decide

theorem test_witness_RedrawRestoresFramebuffer : DrawOk drawCollision 0x0 0x1 1 ∧
    (∃ l, Covers drawCollision 0x0 0x1 1 l ∧ drawCollision.fb.pixel l = false) := by
  refine ⟨by unfold DrawOk RowOut PixelOut; decide, 1, by unfold Covers; decide, by decide⟩

/-- Every covered pixel is on already: the second clause. -/
theorem test_witness_RedrawRestoresFramebuffer_allOn :
    DrawOk { sprite 0x300 [0x80] State.reset with fb := lit [(0, 0)] } 0x0 0x1 1 ∧
    ∀ l < 2048, ¬ (Covers { sprite 0x300 [0x80] State.reset with fb := lit [(0, 0)] } 0x0 0x1 1 l ∧
      (lit [(0, 0)]).pixel l = false) := by
  refine ⟨by unfold DrawOk RowOut PixelOut; decide, ?_⟩
  rintro l - ⟨⟨r, hr, c, hc, hb, ht⟩, hp⟩
  obtain rfl : r = 0 := by omega
  have key : ∀ c < 8, spriteBit (spriteByte { sprite 0x300 [0x80] State.reset with fb := lit [(0, 0)] } 0) c = true → c = 0 := by
    decide
  obtain rfl := key c hc hb
  have : l = 0 := by
    have h0 : drawTarget .spill (0 + 0) (0 + 0) = .ok (some 0) := by decide
    have := ht.symm.trans h0
    simpa using this
  subst this
  revert hp
  decide

/-! ### Control flow and the whole machine -/

theorem test_witness_ReturnPopsCallStack : 0 < (stacked 16).sp.val ∧ 0 < (stacked 1).sp.val ∧ (stacked 0).sp = 0 := by decide

theorem test_witness_CallPushesReturnAddress : (stacked 0).sp.val < 16 ∧ (stacked 15).sp.val < 16 ∧ (stacked 16).sp = 16 := by
  decide

theorem test_witness_ReturnUndoesCall : (stacked 15).sp.val < 16 := by decide

theorem test_witness_PcFollowsTable : (stacked 16).faulted = false ∧
    (after (exec (.ret 0x0E) (stacked 16))).faulted = false ∧ (after (exec (.call 0x400) (stacked 16))).faulted = true ∧
    exec (.ret 0x0E) (stacked 16) = .next (after (exec (.ret 0x0E) (stacked 16))) ∧
    exec (.call 0x400) (stacked 16) = .next (after (exec (.call 0x400) (stacked 16))) :=
  ⟨by decide, by decide, by decide, eq_next (by decide), eq_next (by decide)⟩

theorem test_witness_IdleEndChangesNothing : idle.faulted = false ∧ idle.started = true ∧ idle.pc.toNat < 0xFFF ∧
    idle.fetch = .ok (wordA 0x1 (idle.pc.setWidth 12)) := by decide

theorem test_witness_SubBorrowReadsAfterFlag :
    (1 : Byte) = (if ((regs [(1, 5), (0xF, 3)]).getV 0x1).toNat > ((regs [(1, 5), (0xF, 3)]).getV 0xF).toNat then 1 else 0) ∧
    (0 : Byte) = (if ((regs [(1, 5), (2, 5)]).getV 0x1).toNat > ((regs [(1, 5), (2, 5)]).getV 0x2).toNat then 1 else 0) := by
  decide

theorem test_witness_AddCarrySetsFlagThenSum :
    ((regs [(1, 0xFF), (2, 1)]).getV 0x1).toNat + ((regs [(1, 0xFF), (2, 1)]).getV 0x2).toNat > 255 ∧
    ¬ ((regs [(1, 0xFF), (2, 0)]).getV 0x1).toNat + ((regs [(1, 0xFF), (2, 0)]).getV 0x2).toNat > 255 := by decide

theorem test_witness_NopOnlyAdvancesPc : isNop (.nop01 0xFF) ∧ isNop (.nop8F 0xF 0xF) ∧ isNop (.nopE 0x09E) ∧
    isNop (.nopF 0xFFF) := ⟨rfl, rfl, rfl, rfl⟩

/-- The last case of the frame is a fault, the others are completions. -/
theorem test_witness_AccessMatrixFrames :
    exec (.call 0x400) (stacked 16) = .next (takeFault .stackOverflow (some (stacked 16).ir) (stacked 16)) ∧
    statusPort (after (exec (.call 0x400) (stacked 15))) = statusPort (stacked 15) ∧ ¬ writesI (.call 0x400) ∧
    ¬ writesFb (.call 0x400) ∧ ¬ writesSp (.clear 0x0E) ∧ ¬ writesStack (.ret 0x0E) ∧ ¬ writesV 0xF (.or 0x1 0x2) := by
  refine ⟨eq_next (by decide), by decide, id, id, id, id, ?_⟩
  show ¬ (0xF : Nibble) = 0x1
  decide

theorem test_witness_OnlyRandomReadsRnd : (∀ x nn, Instr.addImm 0xA 0x01 ≠ .random x nn) ∧
    exec (.addImm 0xA 0x01) State.reset = .next (after (exec (.addImm 0xA 0x01) State.reset)) :=
  ⟨(fun _ _ h => by cases h), eq_next (by decide)⟩

/-- S[1] to S[15] are stale at SP = 1, and differ. -/
def staleOther : State := { stacked 1 with stack := (stacked 1).stack.set 15 0x222 }

theorem test_witness_StaleSlotsAreUnobservable : SameButStale (stacked 1) staleOther ∧ stacked 1 ≠ staleOther := by
  unfold SameButStale
  decide

theorem test_witness_PresentsAfterDoneOnly :
    stepWith 0 State.reset = .next (after (stepWith 0 State.reset)) ∧ State.reset.faulted = false ∧
    (after (stepWith 0 State.reset)).faulted = false ∧
    stepWith 0 (State.reset.withFetchWord 16 0x00EE) = .next faultedCore ∧ faultedCore.faulted = true ∧
    stepWith 0 faultedCore = .next faultedCore :=
  ⟨eq_next (by decide), by decide, by decide, eq_next (by decide), by decide, eq_next (by decide)⟩

end Sys2Proof.Tests
end

/-! The invariant of every run: what each transaction can do, and that it keeps the invariant. -/

namespace Sys2Proof.Machine

/-! ### What a handler that completes leaves -/

/-- RETURN's handler completes only with SP above 0, and then writes SP and pc alone (R140). -/
theorem returnHandler_eq_ok {s t : State} (h : returnHandler s = .ok t) :
    ∃ hsp : 0 < s.sp.val, t = { s with sp := ⟨s.sp.val - 1, by omega⟩, pc := s.slot ⟨s.sp.val - 1, by omega⟩ } := by
  by_cases hsp : 0 < s.sp.val
  · simp only [returnHandler, State.pop_of_pos hsp, Except.ok.injEq] at h
    exact ⟨hsp, h.symm⟩
  · have h0 : s.sp = 0 := Fin.ext (Nat.eq_zero_of_not_pos hsp)
    simp [returnHandler, State.pop_of_empty h0] at h

/-- CALL's handler completes only with SP below 16, and then writes the slot at SP, SP and pc alone (R142). -/
theorem callHandler_eq_ok {nnn : Addr} {s t : State} (h : callHandler nnn s = .ok t) :
    ∃ hsp : s.sp.val < 16, t = { s with stack := s.stack.set s.sp.val s.pc hsp, sp := ⟨s.sp.val + 1, by omega⟩,
                                        pc := zextAddr nnn } := by
  by_cases hsp : s.sp.val < 16
  · simp only [callHandler, State.push_of_lt hsp, Except.ok.injEq] at h
    exact ⟨hsp, h.symm⟩
  · have h16 : s.sp = 16 := Fin.ext (show s.sp.val = 16 by omega)
    simp [callHandler, State.push_of_full h16] at h

/-- DRAW's handler, when it completes, writes VF and the framebuffer alone (R127). -/
theorem drawHandler_eq_ok {x y : Nibble} {n : Nat} {s t : State} (h : drawHandler x y n s = .ok t) :
    ∃ c fb, t = { s.setFlag c with fb := fb } := by
  unfold drawHandler at h
  split at h
  · cases h
  · exact ⟨_, _, (Except.ok.inj h).symm⟩

/-! ### What an instruction can do -/

/-- An instruction that completes leaves memory, IR, the status registers and the model's own fields; pc follows the
table of R25; I is kept or loaded from an address operand (R168); the stack is kept or takes a + 2 at SP (R142). -/
structure Completes (i : Instr) (s t : State) : Prop where
  frame : t = { s with v := t.v, i := t.i, pc := t.pc, sp := t.sp, stack := t.stack, fb := t.fb }
  counter : t.pc = nextPc i s
  index : t.i = s.i ∨ ∃ nnn, i = .loadIndex nnn ∧ t.i = zextAddr nnn
  stack : t.stack = s.stack ∨ ∃ nnn, ∃ h : s.sp.val < 16, i = .call nnn ∧ t.stack = s.stack.set s.sp.val (s.pc + 2) h

/-- With SP above 0 the table sends RETURN to the slot below SP (R25, R140). -/
theorem nextPc_ret_of_pos (mid : Byte) {s : State} (h : 0 < s.sp.val) :
    nextPc (.ret mid) s = s.slot ⟨s.sp.val - 1, by omega⟩ :=
  dif_pos h

/-- A skip after the advance of pc: pc is a + 4 or a + 2 (R25). -/
theorem State.skipIf_advancePc (c : Bool) (s : State) :
    s.advancePc.skipIf c = s.setPc (if c then s.pc + 4 else s.pc + 2) := by
  cases c
  · rfl
  · show s.setPc (s.pc + 2 + 2) = s.setPc (s.pc + 4)
    rw [BitVec.add_assoc]; rfl

/-- A skip completes once its target is the one of the table. -/
theorem completes_skip {i : Instr} {s : State} {c : Bool} (hpc : (if c then s.pc + 4 else s.pc + 2) = nextPc i s) :
    Completes i s (s.advancePc.skipIf c) := by
  rw [State.skipIf_advancePc, hpc]
  exact ⟨rfl, rfl, .inl rfl, .inl rfl⟩

/-- What an instruction can do: complete, or have its fault taken on the state it started from (R109, R195). -/
theorem exec_cases {i : Instr} {s t : State} (h : exec i s = .next t) :
    Completes i s t ∨ ∃ f, t = takeFault f (some s.ir) s := by
  cases i with
  | ret mid =>
    obtain hok | ⟨f, -, ht⟩ := commit_cases h
    · obtain ⟨hsp, rfl⟩ := returnHandler_eq_ok hok
      exact .inl ⟨rfl, (nextPc_ret_of_pos (s := s) mid hsp).symm, .inl rfl, .inl rfl⟩
    · exact .inr ⟨f, ht⟩
  | call nnn =>
    obtain hok | ⟨f, -, ht⟩ := commit_cases h
    · obtain ⟨hsp, rfl⟩ := callHandler_eq_ok hok
      exact .inl ⟨rfl, rfl, .inl rfl, .inr ⟨nnn, hsp, rfl, rfl⟩⟩
    · exact .inr ⟨f, ht⟩
  | draw x y n =>
    obtain hok | ⟨f, -, ht⟩ := commit_cases h
    · obtain ⟨c, fb, rfl⟩ := drawHandler_eq_ok hok
      exact .inl ⟨rfl, rfl, .inl rfl, .inl rfl⟩
    · exact .inr ⟨f, ht⟩
  | skipEqImm x nn => cases h; exact .inl (completes_skip (by simp [nextPc]))
  | skipNeImm x nn => cases h; exact .inl (completes_skip (by simp [nextPc]))
  | skipEqReg x y low => cases h; exact .inl (completes_skip (by simp [nextPc]))
  | skipNeReg x y low => cases h; exact .inl (completes_skip (by simp [nextPc]))
  | loadIndex nnn => cases h; exact .inl ⟨rfl, rfl, .inr ⟨nnn, rfl, rfl⟩, .inl rfl⟩
  | _ => cases h; exact .inl ⟨rfl, rfl, .inl rfl, .inl rfl⟩

/-! ### Ranges (R23, R24, R26, R30) -/

theorem zextAddr_le (nnn : Addr) : (zextAddr nnn).toNat ≤ 0xFFF := by
  simp [zextAddr]; omega

/-- A fetch that answers found both bytes in memory (R103). -/
theorem State.lt_of_fetch_eq_ok {s : State} {w : Word} (h : s.fetch = .ok w) : s.pc.toNat < 0xFFF := by
  by_contra hge
  obtain heq | hgt : s.pc.toNat = 0xFFF ∨ 0x1000 ≤ s.pc.toNat := by omega
  · rw [State.fetch_at_last heq] at h; cases h
  · rw [State.fetch_of_ge hgt] at h; cases h

/-- R26: from an instruction inside memory, every target of the table of R25 is at most 0x10FE, the largest JUMP_OFFSET. -/
theorem nextPc_le (i : Instr) {s : State} (hpc : s.pc.toNat < 0xFFF) (hslots : ∀ k, (s.slot k).toNat ≤ 0x1000) :
    (nextPc i s).toNat ≤ 0x10FE := by
  have h2 : (s.pc + 2).toNat ≤ 0x10FE := by bv_omega
  have h4 : (s.pc + 4).toNat ≤ 0x10FE := by bv_omega
  have hskip (c : Prop) [Decidable c] : (if c then s.pc + 4 else s.pc + 2).toNat ≤ 0x10FE := by split <;> assumption
  cases i with
  | jump nnn => exact (zextAddr_le nnn).trans (by decide)
  | call nnn => exact (zextAddr_le nnn).trans (by decide)
  | ret mid =>
    simp only [nextPc]
    split
    · exact (hslots _).trans (by decide)
    · omega
  | jumpOffset nnn => simp [nextPc, BitVec.toNat_add]; omega
  | skipEqImm x nn => exact hskip _
  | skipNeImm x nn => exact hskip _
  | skipEqReg x y low => exact hskip _
  | skipNeReg x y low => exact hskip _
  | _ => exact h2

theorem Fault.code_le (f : Fault) : f.code.toNat ≤ 4 := by cases f <;> simp [Fault.code]

/-! ### The invariant -/

theorem inv_reset : Inv State.reset where
  memory := Memory.wf_reset
  index := by decide
  counter := by decide
  slots := by decide
  reserved := by decide
  cause := by decide
  result := by decide
  fault := by decide
  noFault := by decide

/-- A host reset keeps two fields the invariant does not speak of (log 1, 3). -/
theorem inv_hostReset (s : State) : Inv (hostReset s) := { inv_reset with }

/-- A load changes memory, which stays canonical, and LDSTAT, whose codes are at most 3 (R36, R223 to R225). -/
theorem Inv.after_hostLoad {s : State} (h : Inv s) (rom : List Byte) : Inv (hostLoad rom s) := by
  obtain ⟨c, m, heq, hc, hm⟩ := hostLoad_cases rom s
  rw [heq]
  exact { h with
    memory := hm h.memory
    result := by obtain rfl | rfl | rfl := hc <;> simp }

/-- Setting STARTED leaves the reserved bits (R36, R110). -/
theorem Inv.after_accept {s : State} (h : Inv s) (rnd : Byte) : Inv (s.accept rnd) :=
  { h with
    reserved := by
      rw [State.status_accept, BitVec.and_or_distrib_right, h.reserved]
      decide
    fault := by
      intro hf
      rw [State.faulted_accept] at hf
      obtain ⟨hcause, hpc, -, hinsn⟩ := h.fault hf
      exact ⟨hcause, hpc, State.started_accept rnd s, by rwa [State.finsnValid_accept]⟩
    noFault := by
      rw [State.faulted_accept, State.finsnValid_accept]
      exact h.noFault }

/-- Writing IR keeps the invariant, which does not speak of it. -/
theorem Inv.after_ir {s : State} (h : Inv s) (w : Word) : Inv { s with ir := w } := { h with }

/-- The fault entry on a started core leaves a whole fault record (R195). -/
theorem Inv.after_takeFault {s : State} (h : Inv s) (hs : s.started = true) (f : Fault) (insn : Option Word) :
    Inv (takeFault f insn s) :=
  { h with
    reserved := by
      have hkept : s.status &&& 0xFB &&& 0xF8 = 0 := by
        rw [BitVec.and_assoc]
        exact h.reserved
      rw [State.status_takeFault, BitVec.and_or_distrib_right, hkept]
      cases insn <;> simp
    cause := f.code_le
    fault := by
      refine fun _ => ⟨f.code_ne_zero, rfl, by rwa [State.started_takeFault], fun hv => ?_⟩
      cases insn with
      | none => rfl
      | some w => simp at hv
    noFault := by simp }

/-- Every slot stays in R30's range: CALL pushes a + 2, at most 0x1000 where the fetch completed. -/
theorem Completes.slot_le {i : Instr} {s t : State} (hc : Completes i s t) (hpc : s.pc.toNat < 0xFFF)
    (hslots : ∀ k, (s.slot k).toNat ≤ 0x1000) (k : Fin 16) : (t.slot k).toNat ≤ 0x1000 := by
  obtain hst | ⟨-, hsp, -, hst⟩ := hc.stack
  · simpa only [State.slot, hst] using hslots k
  · simp only [State.slot, hst, Vector.getElem_set]
    split
    · bv_omega
    · exact hslots k

/-- An instruction that completes on a running core, fetched inside memory, keeps the invariant. -/
theorem Inv.after_completes {i : Instr} {s t : State} (h : Inv s) (hf : s.faulted = false) (hpc : s.pc.toNat < 0xFFF)
    (hc : Completes i s t) : Inv t := by
  have hi : t.i.toNat ≤ 0xFFF := by
    obtain hi | ⟨nnn, -, hi⟩ := hc.index
    · exact hi ▸ h.index
    · exact hi ▸ zextAddr_le nnn
  have hcounter : t.pc.toNat ≤ 0x10FE := hc.counter ▸ nextPc_le i hpc h.slots
  have hslots := hc.slot_le hpc h.slots
  obtain ⟨v, j, pc, sp, stack, fb, rfl⟩ :
      ∃ v j pc sp stack fb, t = { s with v := v, i := j, pc := pc, sp := sp, stack := stack, fb := fb } :=
    ⟨_, _, _, _, _, _, hc.frame⟩
  exact { h with
    index := hi
    counter := hcounter
    slots := hslots
    fault := fun hft => absurd (hft.symm.trans hf) (by decide) }

/-- A step keeps the invariant, whatever the random byte: it is ignored, or the fetch faults, or an instruction completes
or has its fault taken. -/
theorem Inv.after_stepWith {s t : State} (h : Inv s) {rnd : Byte} (ht : stepWith rnd s = .next t) : Inv t := by
  obtain ⟨-, heq⟩ | ⟨-, f, -, heq⟩ | ⟨hrun, w, hfetch, heq⟩ := stepWith_cases rnd s
  · cases heq.symm.trans ht
    exact h
  · cases heq.symm.trans ht
    exact (h.after_accept rnd).after_takeFault (State.started_accept rnd s) f none
  · have hacc : Inv { s.accept rnd with ir := w } := (h.after_accept rnd).after_ir w
    obtain hc | ⟨f, rfl⟩ := exec_cases (heq.symm.trans ht)
    · exact hacc.after_completes ((State.faulted_accept rnd s).trans hrun) (State.lt_of_fetch_eq_ok hfetch) hc
    · exact hacc.after_takeFault (State.started_accept rnd s) f _

/-- Settles O17: each transaction keeps the invariant; a step does by the cases of the step and of its instruction. -/
theorem transactionKeepsInvariant : Obligations.TransactionKeepsInvariant := by
  intro tx s t h ht
  cases tx with
  | reset => cases ht; exact inv_hostReset s
  | load rom => cases ht; exact h.after_hostLoad rom
  | step rnd => exact h.after_stepWith ht

end Sys2Proof.Machine

/-! The state under one instruction: the table of pc, the access matrix, and stale call-stack slots. -/

namespace Sys2Proof.Machine

/-- Settles O15: the values of R39 meet every clause of the invariant. -/
theorem resetSatisfiesInvariant : Obligations.ResetSatisfiesInvariant := inv_reset

/-- Settles O16: the step is a step transaction with the host's next byte, and a step with any byte keeps the invariant. -/
theorem stepKeepsInvariant : Obligations.StepKeepsInvariant :=
  fun s _ hinv ht => hinv.after_stepWith ((step_eq_stepWith s).symm.trans ht)

/-! ### Where pc goes (R25) -/

/-- An instruction that completes leaves the status registers. -/
theorem Completes.statusPort_eq {i : Instr} {s t : State} (hc : Completes i s t) : statusPort t = statusPort s := by
  rw [hc.frame]; rfl

theorem Completes.faulted_eq {i : Instr} {s t : State} (hc : Completes i s t) : t.faulted = s.faulted := by
  rw [hc.frame]; rfl

/-- Settles O38: a running core is FAULTED afterwards exactly when the fault was taken, and that keeps pc (R195). -/
theorem pcFollowsTable : Obligations.PcFollowsTable := by
  intro i s t hrun ht
  obtain hc | ⟨f, rfl⟩ := exec_cases ht
  · have hft : t.faulted = false := hc.faulted_eq.trans hrun
    exact ⟨fun _ => hc.counter, fun h => absurd (hft.symm.trans h) (by decide)⟩
  · exact ⟨fun h => absurd (h.symm.trans (State.faulted_takeFault f _ s)) (by decide), fun _ => rfl⟩

/-! ### The access matrix (R38) -/

/-- A write to V[X] leaves every other register. -/
theorem State.getV_setV_of_ne {k x : Nibble} (h : k ≠ x) (b : Byte) (s : State) : (s.setV x b).getV k = s.getV k := by
  rw [State.getV_setV, if_neg h.symm]

theorem State.getV_setFlag_of_ne {k : Nibble} (h : k ≠ flagReg) (c : Bool) (s : State) :
    (s.setFlag c).getV k = s.getV k :=
  State.getV_setV_of_ne h (flagByte c) s

/-- The flag and the destination of ADD_CARRY and SUB_BORROW are the only registers they write (R22). -/
theorem State.getV_setV_setFlag_of_ne {k x : Nibble} (h : ¬ (k = x ∨ k = flagReg)) (b : Byte) (c : Bool) (s : State) :
    ((s.setFlag c).setV x b).getV k = s.getV k := by
  obtain ⟨hx, hflag⟩ := not_or.mp h
  rw [State.getV_setV_of_ne hx, State.getV_setFlag_of_ne hflag]

/-- The columns of the access matrix for the registers, SP and the framebuffer; `Completes` has the others. -/
structure FollowsMatrix (i : Instr) (s t : State) : Prop where
  registers : ∀ k, ¬ writesV k i → t.getV k = s.getV k
  pointer : ¬ writesSp i → t.sp = s.sp
  pixels : ¬ writesFb i → t.fb = s.fb

/-- An instruction that leaves V, SP and the framebuffer follows the matrix. -/
theorem followsMatrix_of_eq (i : Instr) {s t : State} (hv : t.v = s.v) (hsp : t.sp = s.sp) (hfb : t.fb = s.fb) :
    FollowsMatrix i s t :=
  ⟨fun k _ => by simp only [State.getV, hv], fun _ => hsp, fun _ => hfb⟩

theorem followsMatrix_skip (i : Instr) (c : Bool) (s : State) : FollowsMatrix i s (s.advancePc.skipIf c) := by
  rw [State.skipIf_advancePc]
  exact followsMatrix_of_eq i rfl rfl rfl

/-- A write to V[X] alone follows the matrix where it allows that write. -/
theorem followsMatrix_setV {i : Instr} {x : Nibble} (hx : ∀ k, k = x → writesV k i) (b : Byte) (s : State) :
    FollowsMatrix i s (s.advancePc.setV x b) :=
  ⟨fun k hk => State.getV_setV_of_ne (mt (hx k) hk) b s.advancePc, fun _ => rfl, fun _ => rfl⟩

/-- Every instruction follows the matrix, by the handler it runs. -/
theorem exec_followsMatrix {i : Instr} {s t : State} (h : exec i s = .next t) : FollowsMatrix i s t := by
  cases i with
  | ret mid =>
    obtain hok | ⟨f, -, rfl⟩ := commit_cases h
    · obtain ⟨hsp, rfl⟩ := returnHandler_eq_ok hok
      exact ⟨fun _ _ => rfl, fun hw => absurd trivial hw, fun _ => rfl⟩
    · exact followsMatrix_of_eq _ rfl rfl rfl
  | call nnn =>
    obtain hok | ⟨f, -, rfl⟩ := commit_cases h
    · obtain ⟨hsp, rfl⟩ := callHandler_eq_ok hok
      exact ⟨fun _ _ => rfl, fun hw => absurd trivial hw, fun _ => rfl⟩
    · exact followsMatrix_of_eq _ rfl rfl rfl
  | draw x y n =>
    obtain hok | ⟨f, -, rfl⟩ := commit_cases h
    · obtain ⟨c, fb, rfl⟩ := drawHandler_eq_ok hok
      exact ⟨fun k hk => State.getV_setFlag_of_ne hk c s, fun _ => rfl, fun hw => absurd trivial hw⟩
    · exact followsMatrix_of_eq _ rfl rfl rfl
  | clear mid => cases h; exact ⟨fun _ _ => rfl, fun _ => rfl, fun hw => absurd trivial hw⟩
  | addCarry | subBorrow =>
    cases h
    exact ⟨fun k hk => State.getV_setV_setFlag_of_ne hk _ _ _, fun _ => rfl, fun _ => rfl⟩
  | loadImm | addImm | move | or | and | xor | random => cases h; exact followsMatrix_setV (fun _ => id) _ s
  | skipEqImm | skipNeImm | skipEqReg | skipNeReg => cases h; exact followsMatrix_skip _ _ s
  | _ => cases h; exact followsMatrix_of_eq _ rfl rfl rfl

/-- Only LOAD_INDEX writes I (R23). -/
theorem Completes.i_eq {i : Instr} {s t : State} (hc : Completes i s t) (hw : ¬ writesI i) : t.i = s.i := by
  obtain hi | ⟨nnn, rfl, -⟩ := hc.index
  · exact hi
  · exact absurd trivial hw

/-- Only CALL writes the call stack (R27). -/
theorem Completes.stack_eq {i : Instr} {s t : State} (hc : Completes i s t) (hw : ¬ writesStack i) :
    t.stack = s.stack := by
  obtain hst | ⟨nnn, -, rfl, -⟩ := hc.stack
  · exact hst
  · exact absurd trivial hw

/-- The slot at SP is the only one an instruction can write (R142). -/
theorem Completes.slot_eq {i : Instr} {s t : State} (hc : Completes i s t) {k : Fin 16} (hk : k.val ≠ s.sp.val) :
    t.slot k = s.slot k := by
  obtain hst | ⟨-, hsp, -, hst⟩ := hc.stack
  · simp only [State.slot, hst]
  · simp only [State.slot, hst, Vector.getElem_set, if_neg hk.symm]

/-- Settles O48: a fault taken writes the status registers alone; an instruction that completes keeps the fields of its
frame and writes the others by the matrix. -/
theorem accessMatrixFrames : Obligations.AccessMatrixFrames := by
  intro i s t ht
  obtain ⟨hv, hsp, hfb⟩ := exec_followsMatrix ht
  obtain hc | ⟨f, rfl⟩ := exec_cases ht
  · have hmem : t.mem = s.mem := by rw [hc.frame]
    exact ⟨fun a => by rw [hmem], hmem, by rw [hc.frame], by rw [hc.frame], by rw [hc.frame], by rw [hc.frame],
      by rw [hc.frame], hc.i_eq, hsp, hc.stack_eq, fun k => hc.slot_eq, hfb, hv, .inl hc.statusPort_eq⟩
  · exact ⟨fun _ => rfl, rfl, rfl, rfl, rfl, rfl, rfl, fun _ => rfl, hsp, fun _ => rfl, fun _ _ => rfl, hfb, hv,
      .inr ⟨f, rfl⟩⟩

/-! ### Stale call-stack slots (R30) -/

/-- A state that is the same but for stale slots is the state with another stack, equal to its own below SP. -/
theorem SameButStale.exists_stack {s t : State} (h : SameButStale s t) :
    ∃ st : Vector Word 16, t = { s with stack := st } ∧
      ∀ k : Fin 16, k.val < s.sp.val → s.slot k = ({ s with stack := st } : State).slot k := by
  obtain ⟨heq, hslots⟩ := h
  exact ⟨t.stack, heq.symm, by rwa [heq]⟩

/-- What two handlers answer on states that are the same but for stale slots: the same fault, or two such states. -/
def SameResultButStale : Except Fault State → Except Fault State → Prop
  | .ok s, .ok t => SameButStale s t
  | .error f, .error g => f = g
  | _, _ => False

theorem SameButStale.after_takeFault {s t : State} (h : SameButStale s t) (f : Fault) (insn : Option Word) :
    SameButStale (takeFault f insn s) (takeFault f insn t) := by
  obtain ⟨st, rfl, hslots⟩ := h.exists_stack
  exact ⟨rfl, hslots⟩

/-- Committing two such answers gives the same outcome but for stale slots. -/
theorem SameButStale.after_commit {s t : State} (h : SameButStale s t) {r r' : Except Fault State}
    (hr : SameResultButStale r r') : SameOutcomeButStale (commit s r) (commit t r') := by
  have hir : s.ir = t.ir := by rw [← h.1]
  match r, r', hr with
  | .ok _, .ok _, hr => exact hr
  | .error f, .error _, rfl =>
    rw [commit_error, commit_error, hir]
    exact h.after_takeFault f _

theorem SameButStale.after_advancePc {s t : State} (h : SameButStale s t) : SameButStale s.advancePc t.advancePc := by
  obtain ⟨st, rfl, hslots⟩ := h.exists_stack
  exact ⟨rfl, hslots⟩

/-- RETURN reads the slot below SP, which is not stale, and makes it stale. -/
theorem SameButStale.after_returnHandler {s t : State} (h : SameButStale s t) :
    SameResultButStale (returnHandler s) (returnHandler t) := by
  obtain ⟨st, rfl, hslots⟩ := h.exists_stack
  by_cases hsp : 0 < s.sp.val
  · have htop := hslots ⟨s.sp.val - 1, by omega⟩ (Nat.sub_lt hsp Nat.one_pos)
    rw [returnHandler, returnHandler, State.pop_of_pos hsp, State.pop_of_pos (s := { s with stack := st }) hsp]
    simp only [SameResultButStale, htop]
    exact ⟨rfl, fun k hk => hslots k (Nat.lt_of_lt_of_le hk (Nat.sub_le _ _))⟩
  · have h0 : s.sp = 0 := Fin.ext (Nat.eq_zero_of_not_pos hsp)
    simp [returnHandler, State.pop_of_empty, h0, SameResultButStale]

/-- CALL writes the first stale slot, with the same return address on both sides. -/
theorem SameButStale.after_callHandler {s t : State} (h : SameButStale s t) (nnn : Addr) :
    SameResultButStale (callHandler nnn s) (callHandler nnn t) := by
  obtain ⟨st, rfl, hslots⟩ := h.exists_stack
  by_cases hsp : s.sp.val < 16
  · rw [callHandler, callHandler, State.push_of_lt hsp, State.push_of_lt (s := { s with stack := st }) hsp]
    refine ⟨rfl, fun k (hk : k.val < s.sp.val + 1) => ?_⟩
    have hlive (hne : s.sp.val ≠ k.val) := hslots k (by omega)
    simp only [State.slot, State.stack_setPc, Vector.getElem_set] at hlive ⊢
    split
    · rfl
    · exact hlive ‹_›
  · have h16 : s.sp = 16 := Fin.ext (show s.sp.val = 16 by omega)
    simp [callHandler, State.push_of_full, h16, SameResultButStale]

/-- The sprite-drawing engine does not read the call stack. -/
theorem drawRows_stack (s : State) (st : Vector Word 16) (xo yo : Nat) (rs : List Nat) (cv : Canvas) :
    drawRows { s with stack := st } xo yo rs cv = drawRows s xo yo rs cv := by
  induction rs generalizing cv with
  | nil => rfl
  | cons r rs ih => simp only [drawRows, ih]; rfl

theorem SameButStale.after_drawHandler {s t : State} (h : SameButStale s t) (x y : Nibble) (n : Nat) :
    SameResultButStale (drawHandler x y n s) (drawHandler x y n t) := by
  obtain ⟨st, rfl, hslots⟩ := h.exists_stack
  have hrows : drawRows { s with stack := st } (originX x { s with stack := st }) (originY y { s with stack := st })
      (List.range n) ⟨s.fb, false⟩ = drawRows s (originX x s) (originY y s) (List.range n) ⟨s.fb, false⟩ :=
    drawRows_stack s st _ _ _ _
  simp only [drawHandler, hrows]
  cases drawRows s (originX x s) (originY y s) (List.range n) ⟨s.fb, false⟩ with
  | error f => rfl
  | ok cv => exact ⟨rfl, hslots⟩

/-- A skip decided by the same condition on both sides. -/
theorem SameButStale.after_skip {s t : State} (h : SameButStale s t) (c : Bool) :
    SameButStale (s.advancePc.skipIf c) (t.advancePc.skipIf c) := by
  obtain ⟨st, rfl, hslots⟩ := h.exists_stack
  rw [State.skipIf_advancePc, State.skipIf_advancePc]
  exact ⟨rfl, hslots⟩

/-- An instruction reads no stale slot: on two states that are the same but for those it has the same outcome. -/
theorem SameButStale.after_exec {s t : State} (h : SameButStale s t) (i : Instr) :
    SameOutcomeButStale (exec i s) (exec i t) := by
  obtain ⟨st, rfl, hslots⟩ := h.exists_stack
  cases i with
  | ret mid => exact h.after_commit h.after_advancePc.after_returnHandler
  | call nnn => exact h.after_commit (h.after_advancePc.after_callHandler nnn)
  | draw x y n => exact h.after_commit (h.after_advancePc.after_drawHandler x y n)
  | skipEqImm | skipNeImm | skipEqReg | skipNeReg => exact h.after_skip _
  | _ => exact ⟨rfl, hslots⟩

theorem SameButStale.after_accept {s t : State} (h : SameButStale s t) (rnd : Byte) :
    SameButStale (s.accept rnd) (t.accept rnd) := by
  obtain ⟨st, rfl, hslots⟩ := h.exists_stack
  exact ⟨rfl, hslots⟩

theorem SameButStale.after_ir {s t : State} (h : SameButStale s t) (w : Word) :
    SameButStale { s with ir := w } { t with ir := w } := by
  obtain ⟨st, rfl, hslots⟩ := h.exists_stack
  exact ⟨rfl, hslots⟩

/-- Settles O50: FAULTED and the fetch do not depend on the stack, so both steps take the same branch, and no branch
reads a stale slot. -/
theorem staleSlotsAreUnobservable : Obligations.StaleSlotsAreUnobservable := by
  intro s t rnd h
  have hacc := h.after_accept rnd
  have hfaulted : t.faulted = s.faulted := by rw [← h.1]; rfl
  have hfetch : t.fetch = s.fetch := by rw [← h.1]; rfl
  obtain ⟨hf, heq⟩ | ⟨hrun, f, hraise, heq⟩ | ⟨hrun, w, hok, heq⟩ := stepWith_cases rnd s
  · rw [heq, stepWith_of_faulted rnd (hfaulted.trans hf)]
    exact h
  · rw [heq, stepWith_of_fetch_error rnd (hfaulted.trans hrun) (hfetch.trans hraise)]
    exact hacc.after_takeFault f none
  · rw [heq, stepWith_of_fetch_ok rnd (hfaulted.trans hrun) (hfetch.trans hok)]
    exact (hacc.after_ir w).after_exec (decodeWord w)

end Sys2Proof.Machine

/-! Encoding and memory: the bytes of an instruction decode to it, and memory stays as it is once STARTED. -/

namespace Sys2Proof

/-! ### The bytes of an instruction (R53) -/

/-- The decoder reads the two bytes of an instruction as its word, big-endian, and leaves the bytes after them. -/
theorem decode_encodeBytes_append (i : Instr) (rest : List Byte) :
    decode (encodeBytes i ++ rest) = .ok (decodeWord (encode i), rest) := by
  simp only [encodeBytes, List.cons_append, List.nil_append, decode, wordOfBytes_split]

/-- Settles O1: the bytes make the word of the instruction again, and that word decodes to the instruction. -/
theorem decodeEncodeRoundTrip : Obligations.DecodeEncodeRoundTrip := by
  intro i rest hwf
  have hword : decodeWord (encode i) = i := Laws.RoundTrip.each i hwf
  rw [decode_encodeBytes_append, hword]

end Sys2Proof

namespace Sys2Proof.Machine

/-! ### Memory once STARTED (R58) -/

/-- No instruction writes memory: one that completes keeps it in its frame, and a fault taken discards every write. -/
theorem exec_mem {i : Instr} {s t : State} (h : exec i s = .next t) : t.mem = s.mem := by
  obtain hc | ⟨f, rfl⟩ := exec_cases h
  · rw [hc.frame]
  · exact State.mem_takeFault f _ s

/-- A step writes no memory, whatever the random byte and whether it is accepted or IGNORED. -/
theorem stepWith_mem {rnd : Byte} {s t : State} (h : stepWith rnd s = .next t) : t.mem = s.mem := by
  obtain ⟨-, heq⟩ | ⟨-, f, -, heq⟩ | ⟨-, w, -, heq⟩ := stepWith_cases rnd s
  · cases heq.symm.trans h
    rfl
  · cases heq.symm.trans h
    rfl
  · exact (exec_mem (heq.symm.trans h)).trans (State.mem_accept rnd s)

/-- A load after the start writes no memory (R225). -/
theorem hostLoad_mem_of_started {s : State} (h : s.started = true) (rom : List Byte) : (hostLoad rom s).mem = s.mem := by
  obtain ⟨c, heq, -⟩ := hostLoad_started (rom := rom) h
  rw [heq, State.mem_setLdstat]

/-- Settles O18: a step never writes memory, and of the other transactions a load is refused once STARTED. -/
theorem memoryConstantAfterStart : Obligations.MemoryConstantAfterStart := by
  refine ⟨fun _ _ _ => exec_mem, fun tx s t hstarted htx ht => ?_⟩
  cases tx with
  | reset => exact absurd rfl htx
  | load rom => cases ht; exact hostLoad_mem_of_started hstarted rom
  | step rnd => exact stepWith_mem ht

end Sys2Proof.Machine

/-! The decoder on all words: no bit is dropped, the rows of the opcode map, NOP, and that every transaction answers. -/

namespace Sys2Proof

/-! ### No bit is dropped (R76, R85) -/

/-- Family 0 keeps the low nibble in the choice of the row and bits 11:4 as an operand (R79). -/
theorem wf_and_encode_decodeFamily0 (w : Word) :
    (decodeFamily0 w).WellFormed = true ∧ encode (decodeFamily0 w) = wordZ 0x0 (fieldMid w) (fieldN w) := by
  unfold decodeFamily0
  obtain ⟨n⟩ := fieldN w
  fin_cases n <;> exact ⟨rfl, rfl⟩

/-- Family 8 keeps the low nibble in the choice of the row and X and Y as operands (R80). -/
theorem wf_and_encode_decodeFamily8 (w : Word) :
    (decodeFamily8 w).WellFormed = true ∧
      encode (decodeFamily8 w) = wordXYN 0x8 (fieldX w) (fieldY w) (fieldN w) := by
  unfold decodeFamily8
  obtain ⟨n⟩ := fieldN w
  fin_cases n <;> exact ⟨rfl, rfl⟩

/-- DRAW's row count, read from a nibble, is in range and is that nibble again (R87). -/
theorem wf_and_encode_draw_toNat (x y n : Nibble) :
    (Instr.draw x y n.toNat).WellFormed = true ∧ encode (.draw x y n.toNat) = wordXYN 0xD x y n :=
  ⟨decide_eq_true n.isLt, congrArg (wordXYN 0xD x y) ((BitVec.ofNat_toNat 4 n).trans (BitVec.setWidth_eq n))⟩

/-- Settles O2: in each of the 16 families the operands are the fields of one layout of R77, and these make the word. -/
theorem encodeDecodeRoundTrip : Obligations.EncodeDecodeRoundTrip := by
  intro w
  have hA := wordA_fields w
  have hXK := wordXK_fields w
  have hXYN := wordXYN_fields w
  have hZ := wordZ_fields w
  obtain ⟨hwf0, h0⟩ := wf_and_encode_decodeFamily0 w
  obtain ⟨hwf8, h8⟩ := wf_and_encode_decodeFamily8 w
  obtain ⟨hwfD, hD⟩ := wf_and_encode_draw_toNat (fieldX w) (fieldY w) (fieldN w)
  unfold decodeWord
  generalize fieldF w = f at hA hXK hXYN hZ ⊢
  obtain ⟨f⟩ := f
  fin_cases f
  exacts [⟨hwf0, h0.trans hZ⟩, ⟨rfl, hA⟩, ⟨rfl, hA⟩, ⟨rfl, hXK⟩, ⟨rfl, hXK⟩, ⟨rfl, hXYN⟩, ⟨rfl, hXK⟩, ⟨rfl, hXK⟩,
    ⟨hwf8, h8.trans hXYN⟩, ⟨rfl, hXYN⟩, ⟨rfl, hA⟩, ⟨rfl, hA⟩, ⟨rfl, hXK⟩, ⟨hwfD, hD.trans hXYN⟩, ⟨rfl, hA⟩,
    ⟨rfl, hA⟩]

/-- Settles O4: the decoder evaluated on the eight words. -/
theorem specWordsDecode : Obligations.SpecWordsDecode := by
  unfold Obligations.SpecWordsDecode
  decide

/-! ### The bits that select a row: the family and the low nibble (R78 to R83) -/

theorem and_wordXYN (f x y n f' x' y' n' : Nibble) :
    wordXYN f x y n &&& wordXYN f' x' y' n' = wordXYN (f &&& f') (x &&& x') (y &&& y') (n &&& n') :=
  (BitVec.and_append (w := 8) (v := 8)).trans
    (congrArg₂ (fun hi lo : Byte => (hi ++ lo : Word)) BitVec.and_append BitVec.and_append)

/-- The bits under the mask 0xF00F are the family and the low nibble. -/
theorem and_selectorMask (w : Word) : w &&& 0xF00F = wordXYN (fieldF w) 0x0 0x0 (fieldN w) := by
  calc w &&& 0xF00F
      = wordXYN (fieldF w) (fieldX w) (fieldY w) (fieldN w) &&& wordXYN 0xF 0x0 0x0 0xF := by rw [wordXYN_fields]; rfl
    _ = wordXYN (fieldF w) 0x0 0x0 (fieldN w) := by
        have hF : fieldF w &&& 0xF = fieldF w := BitVec.and_allOnes
        have hN : fieldN w &&& 0xF = fieldN w := BitVec.and_allOnes
        rw [and_wordXYN, hF, hN]
        simp

/-- No row of the opcode map looks at another bit. -/
theorem selects_and_selectorMask {r : OpcodeRow} (hr : r ∈ opcodeMap) (w : Word) :
    r.selects (w &&& 0xF00F) = r.selects w := by
  have hmask : ∀ r ∈ opcodeMap, 0xF00F &&& r.mask = r.mask := by decide
  rw [OpcodeRow.selects, BitVec.and_assoc, hmask r hr, OpcodeRow.selects]

theorem mnemonic_decodeFamily0_congr {w w' : Word} (hN : fieldN w = fieldN w') :
    (decodeFamily0 w).mnemonic = (decodeFamily0 w').mnemonic := by
  unfold decodeFamily0
  rw [hN]
  split <;> rfl

theorem mnemonic_decodeFamily8_congr {w w' : Word} (hN : fieldN w = fieldN w') :
    (decodeFamily8 w).mnemonic = (decodeFamily8 w').mnemonic := by
  unfold decodeFamily8
  rw [hN]
  split <;> rfl

/-- Nor does the dispatch, in the choice of the row. -/
theorem mnemonic_decodeWord_congr {w w' : Word} (hF : fieldF w = fieldF w') (hN : fieldN w = fieldN w') :
    (decodeWord w).mnemonic = (decodeWord w').mnemonic := by
  have h0 := mnemonic_decodeFamily0_congr hN
  have h8 := mnemonic_decodeFamily8_congr hN
  unfold decodeWord
  rw [hF]
  split
  exacts [h0, rfl, rfl, rfl, rfl, rfl, rfl, rfl, h8, rfl, rfl, rfl, rfl, rfl, rfl, rfl]

theorem mnemonic_decodeWord_selector (w : Word) :
    (decodeWord w).mnemonic = (decodeWord (wordXYN (fieldF w) 0x0 0x0 (fieldN w))).mnemonic :=
  mnemonic_decodeWord_congr (by simp [wordXYN_eq]) (by simp [wordXYN_eq])

/-- The rows that a family and a low nibble select are one, with the mnemonic that the dispatch gives. -/
theorem selectedMnemonics_selector : ∀ f n : Nibble,
    (opcodeMap.filter (·.selects (wordXYN f 0x0 0x0 n))).map OpcodeRow.mnemonic =
      [(decodeWord (wordXYN f 0x0 0x0 n)).mnemonic] := by
  decide

/-- Settles O3: a word selects the rows that its family and low nibble select, which are one. -/
theorem everyWordSelectsOneRow : Obligations.EveryWordSelectsOneRow := by
  intro w
  have hrows : opcodeMap.filter (·.selects w) =
      opcodeMap.filter (·.selects (wordXYN (fieldF w) 0x0 0x0 (fieldN w))) :=
    List.filter_congr fun r hr => by rw [← and_selectorMask, selects_and_selectorMask hr]
  obtain ⟨r, hr, hm⟩ := List.map_eq_singleton_iff.mp (selectedMnemonics_selector (fieldF w) (fieldN w))
  exact ⟨r, hrows.trans hr, (mnemonic_decodeWord_selector w).trans hm.symm⟩

end Sys2Proof

namespace Sys2Proof.Machine

/-! ### The unmapped words (R84, R108) -/

/-- Each of the 26 NOP rows only advances pc (R108). -/
theorem exec_of_isNop {i : Instr} (h : isNop i) (s : State) : exec i s = .next { s with pc := s.pc + 2 } := by
  cases i with
  | nop01 | nop02 | nop03 | nop04 | nop05 | nop06 | nop07 | nop08 | nop09 | nop0A | nop0B | nop0C | nop0D | nop0F => rfl
  | nop86 | nop87 | nop88 | nop89 | nop8A | nop8B | nop8C | nop8D | nop8E | nop8F => rfl
  | nopE | nopF => rfl
  | _ => cases h

/-- Settles O6: the family and the low nibble of these rows select NOP. -/
theorem unmappedWordsExecuteNop : Obligations.UnmappedWordsExecuteNop := by
  intro w s hw
  have hrows : ∀ f n : Nibble, (f = 0x0 ∧ n ≠ 0x0 ∧ n ≠ 0xE ∨ f = 0x8 ∧ 6 ≤ n.toNat ∨ f = 0xE ∨ f = 0xF) →
      (decodeWord (wordXYN f 0x0 0x0 n)).mnemonic = .nop := by decide
  have hnop : isNop (decodeWord w) := (mnemonic_decodeWord_selector w).trans (hrows _ _ hw)
  exact ⟨hnop, exec_of_isNop hnop s⟩

/-- Settles O5: the words decode as encoded (RoundTrip), and no meaning reads an ignored field. -/
theorem ignoredBitsHaveNoEffect : Obligations.IgnoredBitsHaveNoEffect := by
  refine ⟨fun mid => ⟨Laws.RoundTrip.clear mid rfl, Laws.RoundTrip.ret mid rfl⟩,
    fun x y low => ⟨Laws.RoundTrip.skipEqReg x y low rfl, Laws.RoundTrip.skipNeReg x y low rfl⟩, fun i s => ?_⟩
  cases i <;> rfl

/-! ### Everything answers (R84, R106, R210) -/

/-- A handler's answer is kept or its fault is taken: a next state either way. -/
theorem commit_answers (s : State) (r : Except Fault State) : ∃ t, commit s r = .next t := by
  cases r with
  | ok t => exact ⟨t, rfl⟩
  | error f => exact ⟨_, rfl⟩

/-- The three instructions that can fault go through commit; the others complete. -/
theorem exec_answers (i : Instr) (s : State) : ∃ t, exec i s = .next t := by
  cases i with
  | ret mid => exact commit_answers s _
  | call nnn => exact commit_answers s _
  | draw x y n => exact commit_answers s _
  | _ => exact ⟨_, rfl⟩

theorem stepWith_answers (rnd : Byte) (s : State) : ∃ t, stepWith rnd s = .next t := by
  obtain ⟨-, heq⟩ | ⟨-, f, -, heq⟩ | ⟨-, w, -, heq⟩ := stepWith_cases rnd s
  · exact ⟨_, heq⟩
  · exact ⟨_, heq⟩
  · rw [heq]
    exact exec_answers _ _

/-- Settles O10: reset and load are functions, and a step answers in each of its three cases. -/
theorem everyTransactionAnswers : Obligations.EveryTransactionAnswers := by
  refine ⟨exec_answers, fun tx s => ?_⟩
  cases tx with
  | reset => exact ⟨_, rfl⟩
  | load rom => exact ⟨_, rfl⟩
  | step rnd => exact stepWith_answers rnd s

end Sys2Proof.Machine

/-! The step cycle: the fetch, an accepted step, faults and STARTED until reset, the random byte, and the present port. -/

namespace Sys2Proof.Machine

/-! ### The fetch (R102 to R104) -/

/-- From the last address of memory on, the fetch raises for the first of pc and pc + 1 that is out of range (R103). -/
theorem State.fetch_of_ge_last {s : State} (h : 0xFFF ≤ s.pc.toNat) :
    s.fetch = .error (.addressOutOfRange (if 0x1000 ≤ s.pc.toNat then s.pc else s.pc + 1).toNat) := by
  split
  · exact State.fetch_of_ge ‹_›
  · have hlast : s.pc.toNat = 0xFFF := by omega
    have hnext : (s.pc + 1).toNat = 0x1000 := by bv_omega
    rw [State.fetch_at_last hlast, hnext]

/-- Settles O8: the fetch's fault is taken with no word, and its FADDR is the address that the fetch names. -/
theorem fetchFaultsAtEndOfMemory : Obligations.FetchFaultsAtEndOfMemory := by
  intro s rnd hrun
  constructor
  · intro hpc
    refine ⟨_, stepWith_of_fetch_error rnd hrun (State.fetch_of_ge_last hpc), State.faulted_takeFault _ _ _, rfl, rfl, ?_,
      rfl, State.finsnValid_takeFault _ _ _⟩
    exact (BitVec.ofNat_toNat _ _).trans (BitVec.setWidth_eq _)
  · intro hpc
    exact ⟨_, State.fetch_of_lt (show s.pc.toNat < 0xFFF by omega)⟩

/-- Two bytes decode to one instruction only: that of the word they form (R104). -/
theorem decodeWord_of_decode_pair {hi lo : Byte} {i : Instr} (h : decode [hi, lo] = .ok (i, [])) :
    decodeWord (wordOfBytes hi lo) = i := by
  simpa [decode] using h

/-- Settles O7: the fetch reads the word of the two bytes, and the step runs what that word decodes to. -/
theorem stepRunsDecodedInstruction : Obligations.StepRunsDecodedInstruction := by
  refine ⟨step_eq_stepWith, ?_⟩
  rintro s rnd hi lo i hrun hfetch rfl rfl hdec
  rw [stepWith_of_fetch_ok rnd hrun (State.fetch_of_lt hfetch), decodeWord_of_decode_pair hdec]
  rfl

/-- Settles O47: the meaning of each NOP row is the same shared one, already read off for O6. -/
theorem nopOnlyAdvancesPc : Obligations.NopOnlyAdvancesPc := fun _ s h => exec_of_isNop h s

/-! ### An accepted step (R100, R109, R110) -/

/-- What an accepted step can do: the fetch's fault is taken with no word, the instruction at pc completes, or its fault
is taken with its word. -/
theorem stepWith_cases_of_running {s t : State} {rnd : Byte} (hrun : Running s) (h : stepWith rnd s = .next t) :
    (∃ f, t = takeFault f none (s.accept rnd)) ∨
    ∃ w, s.fetch = .ok w ∧
      (Completes (decodeWord w) { s.accept rnd with ir := w } t ∨
        ∃ f, t = takeFault f (some w) { s.accept rnd with ir := w }) := by
  obtain ⟨hf, -⟩ | ⟨-, f, -, heq⟩ | ⟨-, w, hfetch, heq⟩ := stepWith_cases rnd s
  · exact absurd (hf.symm.trans hrun) (by decide)
  · cases heq.symm.trans h
    exact .inl ⟨f, rfl⟩
  · exact .inr ⟨w, hfetch, exec_cases (heq.symm.trans h)⟩

/-- An instruction that completes leaves STARTED. -/
theorem Completes.started_eq {i : Instr} {s t : State} (hc : Completes i s t) : t.started = s.started := by
  rw [hc.frame]; rfl

/-- An accepted step sets STARTED, whether it is DONE or FAULT (R110). -/
theorem started_of_stepWith {s t : State} {rnd : Byte} (hrun : Running s) (h : stepWith rnd s = .next t) :
    t.started = true := by
  have hacc : (s.accept rnd).started = true := State.started_accept rnd s
  obtain ⟨f, rfl⟩ | ⟨w, -, hc | ⟨f, rfl⟩⟩ := stepWith_cases_of_running hrun h
  · exact (State.started_takeFault f _ _).trans hacc
  · exact hc.started_eq.trans hacc
  · exact (State.started_takeFault f _ _).trans hacc

/-- Settles O12: a step that leaves FAULTED has taken a fault on the state of before its writes, in the fetch, with no
word, or after it, with the word fetched. -/
theorem faultedStepCommitsNothing : Obligations.FaultedStepCommitsNothing := by
  intro s t rnd hrun ht hft
  have hstarted := started_of_stepWith hrun ht
  obtain ⟨f, rfl⟩ | ⟨w, hfetch, hc | ⟨f, rfl⟩⟩ := stepWith_cases_of_running hrun ht
  · refine ⟨rfl, hstarted, f.code_ne_zero, rfl, fun hv => ?_⟩
    rw [State.finsnValid_takeFault] at hv
    cases hv
  · have hrunning : t.faulted = false := (hc.faulted_eq.trans (State.faulted_accept rnd s)).trans hrun
    exact absurd (hft.symm.trans hrunning) (by decide)
  · exact ⟨rfl, hstarted, f.code_ne_zero, rfl, fun _ => hfetch⟩

/-! ### FAULTED and STARTED until reset (R37, R101, R110, R196, R225) -/

/-- A host reset clears STATUS (R39). -/
@[simp] theorem State.status_hostReset (s : State) : (hostReset s).status = 0 := rfl

theorem faulted_hostReset (s : State) : (hostReset s).faulted = false := by simp [State.faulted]

theorem started_hostReset (s : State) : (hostReset s).started = false := by simp [State.started]

/-- Settles O9: a step of a FAULTED core is ignored, and a load writes memory and LDSTAT alone. -/
theorem faultedUntilReset : Obligations.FaultedUntilReset := by
  intro s hf
  refine ⟨fun rnd => stepWith_of_faulted rnd hf, fun tx htx => ?_, faulted_hostReset s⟩
  cases tx with
  | reset => exact absurd rfl htx
  | load rom =>
    obtain ⟨c, m, heq, -⟩ := hostLoad_cases rom s
    exact ⟨_, congrArg Host.Outcome.next heq, rfl, rfl, rfl, rfl, rfl⟩
  | step rnd => exact ⟨s, stepWith_of_faulted rnd hf, rfl, rfl, rfl, rfl, rfl⟩

/-- A load leaves STARTED. -/
theorem started_hostLoad (rom : List Byte) (s : State) : (hostLoad rom s).started = s.started := by
  obtain ⟨c, m, heq, -⟩ := hostLoad_cases rom s
  rw [heq]; rfl

/-- A step of a started core leaves it started, accepted or IGNORED. -/
theorem started_stepWith_of_started {s t : State} {rnd : Byte} (hs : s.started = true)
    (h : stepWith rnd s = .next t) : t.started = true := by
  cases hf : s.faulted with
  | true =>
    cases (stepWith_of_faulted rnd hf).symm.trans h
    exact hs
  | false => exact started_of_stepWith hf h

/-- Settles O11: neither a step nor a load clears STARTED, and a load after the start is refused. -/
theorem startedUntilReset : Obligations.StartedUntilReset := by
  refine ⟨fun s t rnd => started_of_stepWith, fun s t tx hs htx ht => ?_, started_hostReset,
    fun s rom hs => ?_⟩
  · cases tx with
    | reset => exact absurd rfl htx
    | load rom => cases ht; exact (started_hostLoad rom s).trans hs
    | step rnd => exact started_stepWith_of_started hs ht
  · refine ⟨hostLoad_mem_of_started hs rom, ?_⟩
    obtain ⟨c, heq, hcode⟩ := hostLoad_started (rom := rom) hs
    rw [heq, State.ldstat_setLdstat]
    obtain rfl | rfl := hcode <;> decide

/-! ### The random byte (R100, R169) -/

/-- The state with another byte on the random input. -/
def State.withRnd (r : Byte) (s : State) : State := { s with rnd := r }

/-- Committing an answer that differs only in the random byte gives a state that differs only there. -/
theorem commit_withRnd {s t : State} {a : Except Fault State} (h : commit s a = .next t) (r : Byte) :
    commit (s.withRnd r) (a.map (State.withRnd r)) = .next (t.withRnd r) := by
  cases a with
  | ok u => cases h; rfl
  | error f => cases h; rfl

theorem returnHandler_withRnd (r : Byte) (s : State) :
    returnHandler (s.withRnd r) = (returnHandler s).map (State.withRnd r) := by
  by_cases hsp : 0 < s.sp.val
  · rw [returnHandler, returnHandler, State.pop_of_pos hsp, State.pop_of_pos (s := s.withRnd r) hsp]
    rfl
  · have h0 : s.sp = 0 := Fin.ext (Nat.eq_zero_of_not_pos hsp)
    rw [returnHandler, returnHandler, State.pop_of_empty h0, State.pop_of_empty (s := s.withRnd r) h0]
    rfl

theorem callHandler_withRnd (nnn : Addr) (r : Byte) (s : State) :
    callHandler nnn (s.withRnd r) = (callHandler nnn s).map (State.withRnd r) := by
  by_cases hsp : s.sp.val < 16
  · rw [callHandler, callHandler, State.push_of_lt hsp, State.push_of_lt (s := s.withRnd r) hsp]
    rfl
  · have h16 : s.sp = 16 := Fin.ext (show s.sp.val = 16 by omega)
    rw [callHandler, callHandler, State.push_of_full h16, State.push_of_full (s := s.withRnd r) h16]
    rfl

/-- The sprite-drawing engine does not read the random byte. -/
theorem drawRows_withRnd (r : Byte) (s : State) (xo yo : Nat) (rs : List Nat) (cv : Canvas) :
    drawRows (s.withRnd r) xo yo rs cv = drawRows s xo yo rs cv := by
  induction rs generalizing cv with
  | nil => rfl
  | cons row rs ih => simp only [drawRows, ih]; rfl

theorem drawHandler_withRnd (x y : Nibble) (n : Nat) (r : Byte) (s : State) :
    drawHandler x y n (s.withRnd r) = (drawHandler x y n s).map (State.withRnd r) := by
  have hrows : drawRows (s.withRnd r) (originX x (s.withRnd r)) (originY y (s.withRnd r)) (List.range n)
      ⟨(s.withRnd r).fb, false⟩ = drawRows s (originX x s) (originY y s) (List.range n) ⟨s.fb, false⟩ :=
    drawRows_withRnd r s _ _ _ _
  simp only [drawHandler, hrows]
  cases drawRows s (originX x s) (originY y s) (List.range n) ⟨s.fb, false⟩ with
  | error f => rfl
  | ok cv => rfl

theorem skipIf_advancePc_withRnd (c : Bool) (r : Byte) (s : State) :
    (s.withRnd r).advancePc.skipIf c = (s.advancePc.skipIf c).withRnd r := by
  rw [State.skipIf_advancePc, State.skipIf_advancePc]; rfl

/-- Settles O49: the handlers that can fault answer the same but for the byte, and no other meaning but RANDOM's reads
it. -/
theorem onlyRandomReadsRnd : Obligations.OnlyRandomReadsRnd := by
  intro i s t r hi h
  cases i with
  | random x nn => exact absurd rfl (hi x nn)
  | ret mid => exact (congrArg (commit _) (returnHandler_withRnd r s.advancePc)).trans (commit_withRnd h r)
  | call nnn => exact (congrArg (commit _) (callHandler_withRnd nnn r s.advancePc)).trans (commit_withRnd h r)
  | draw x y n => exact (congrArg (commit _) (drawHandler_withRnd x y n r s.advancePc)).trans (commit_withRnd h r)
  | skipEqImm | skipNeImm | skipEqReg | skipNeReg =>
    cases h
    exact congrArg Host.Outcome.next (skipIf_advancePc_withRnd _ r s)
  | _ => cases h; rfl

/-! ### The present port (R33, R107) -/

/-- PIXEL_ON is the successor of a number that leaves room for it below 2 ^ 32 (R8, R33). -/
theorem pixelOn_ne_zero : Config.pixelOn ≠ 0 := by
  have hlt := Config.pixelOnPred.isLt
  intro h
  have hnat := congrArg BitVec.toNat h
  simp only [Config.pixelOn, BitVec.toNat_ofNat, BitVec.ofNat_eq_ofNat, Nat.zero_mod] at hnat
  omega

theorem length_pixels_frameWith (on : BitVec 32) (fb : FrameBuffer) : (frameWith on fb).pixels.length = 2048 := by
  simp [frameWith, Config.fbPixels]

theorem getElem?_pixels_frameWith (on : BitVec 32) (fb : FrameBuffer) {l : Nat} (h : l < 2048) :
    (frameWith on fb).pixels[l]? = some (if fb.pixel l then on else 0) := by
  simp [frameWith, Config.fbPixels, h]

/-- After IGNORED, on a core FAULTED before, and after FAULT, nothing is presented. -/
theorem presented_of_faulted {s t : State} (h : s.faulted = true ∨ t.faulted = true) : presented s t = none := by
  cases hs : s.faulted with
  | true => simp [presented, replyOf, hs]
  | false =>
    have ht : t.faulted = true := h.resolve_left (by simp [hs])
    simp [presented, replyOf, hs, ht]

theorem presented_of_running {s t : State} (hs : s.faulted = false) (ht : t.faulted = false) :
    presented s t = some (present t) := by
  simp [presented, replyOf, hs, ht]

/-- Settles O51: whether a frame is presented is read off the two states, and a frame is that of the framebuffer. -/
theorem presentsAfterDoneOnly : Obligations.PresentsAfterDoneOnly := by
  refine ⟨pixelOn_ne_zero, fun s t rnd _ => ⟨presented_of_faulted, fun hs ht => ?_⟩⟩
  exact ⟨present t, presented_of_running hs ht, rfl, length_pixels_frameWith _ _,
    fun x hx y hy => getElem?_pixels_frameWith _ _ (by omega)⟩

end Sys2Proof.Machine

/-! The display: CLEAR, the formulas of a sprite's bits and targets, and what DRAW does when it completes, when it faults,
when it is repeated, and from one edge mode to another. -/

namespace Sys2Proof.Machine

/-! ### CLEAR (R120) -/

/-- Settles O22: the word is the encoding of CLEAR, which decodes to it, and no pixel of the cleared framebuffer is on. -/
theorem clearTurnsEveryPixelOff : Obligations.ClearTurnsEveryPixelOff :=
  fun mid _ => ⟨Laws.RoundTrip.clear mid rfl, _, rfl, FrameBuffer.pixel_allOff, rfl⟩

/-! ### A sprite's bits and targets in the formulas of R125 and R127 -/

/-- The mask 0x80 >> c has bit 7 - c alone. -/
theorem shiftRight_0x80_eq_twoPow : ∀ c < 8, (0x80 : Byte) >>> c = BitVec.twoPow 8 (7 - c) := by decide

theorem shiftRight_0x80_ne_zero : ∀ c < 8, (0x80 : Byte) >>> c ≠ 0 := by decide

/-- The mask test of R125 reads the bit of the sprite column. -/
theorem spriteBit_iff_and_ne_zero (b : Byte) {c : Nat} (hc : c < 8) :
    spriteBit b c = true ↔ b &&& ((0x80 : Byte) >>> c) ≠ 0 := by
  have hmask := shiftRight_0x80_ne_zero c hc
  rw [shiftRight_0x80_eq_twoPow c hc] at hmask ⊢
  rw [spriteBit, BitVec.and_twoPow]
  cases b.getLsbD (7 - c) with
  | false => simp
  | true => simpa using hmask

/-- A set bit has a target exactly where R127's formula of the mode plots it. -/
theorem drawTarget_eq_ok_some_iff (mode : EdgeMode) (col row l : Nat) :
    drawTarget mode col row = .ok (some l) ↔ PlotsAt mode col row l := by
  cases mode with
  | spill | clip =>
    simp only [drawTarget, PlotsAt]
    split
    · simp; omega
    · simp; omega
  | wrap => simp [drawTarget, PlotsAt, eq_comm]

/-- Settles O52: the bit by the mask test; each target by what is known of `drawTarget`, mode by mode. -/
theorem spriteBitsAndTargetsFollowFormulas : Obligations.SpriteBitsAndTargetsFollowFormulas := by
  refine ⟨fun b c hc => ⟨rfl, spriteBit_iff_and_ne_zero b hc⟩,
    fun col row => ⟨fun h => ?_, fun h => ?_, ?_, fun h => ?_, rfl⟩⟩
  · exact (drawTarget_eq_ok_some_iff ..).mpr ⟨rfl, h⟩
  · exact (drawTarget_eq_error_iff ..).mpr ⟨rfl, h, rfl⟩
  · exact drawTarget_inside .clip
  · exact if_neg (by omega)

/-- Settles O24: by R127's formulas. The offsets within a sprite are below 8 columns and 15 rows, so neither a row of 64
pixels nor a turn around the screen brings two of them to one index. -/
theorem spriteTargetsAreDistinct : Obligations.SpriteTargetsAreDistinct := by
  intro mode xo yo r c r' c' l hxo hyo hr hc hr' hc' h h'
  rw [drawTarget_eq_ok_some_iff] at h h'
  cases mode <;> simp only [PlotsAt] at h h' <;> omega

/-! ### The targets of one sprite are distinct (R129) -/

theorem originX_lt (x : Nibble) (s : State) : originX x s < 64 := Nat.mod_lt _ (by decide)

theorem originY_lt (y : Nibble) (s : State) : originY y s < 32 := Nat.mod_lt _ (by decide)

theorem mem_colTargets {mode : EdgeMode} {b : Byte} {xo row l : Nat} {cs : List Nat} :
    l ∈ colTargets mode b xo row cs ↔
      ∃ c ∈ cs, spriteBit b c = true ∧ drawTarget mode (xo + c) row = .ok (some l) := by
  simp only [colTargets, List.mem_filterMap]
  refine exists_congr fun c => and_congr_right fun _ => ?_
  cases spriteBit b c with
  | false => simp
  | true => rcases drawTarget mode (xo + c) row with f | o <;> simp

/-- The target of one column, seen as the targets of the list of that column. -/
theorem drawTarget_of_colTargets_singleton {mode : EdgeMode} {b : Byte} {xo row c l : Nat}
    (h : l ∈ colTargets mode b xo row [c]) : drawTarget mode (xo + c) row = .ok (some l) := by
  obtain ⟨d, hd, -, ht⟩ := mem_colTargets.mp h
  rwa [← List.mem_singleton.mp hd]

theorem nodup_colTargets (mode : EdgeMode) (b : Byte) {xo yo r : Nat} (hxo : xo < 64) (hyo : yo < 32) (hr : r < 15) :
    (colTargets mode b xo (yo + r) (List.range 8)).Nodup := by
  refine List.pairwise_filterMap.mpr (List.nodup_range.pairwise_of_forall_ne fun c hc c' hc' hne l hl l' hl' => ?_)
  rintro rfl
  have ht := drawTarget_of_colTargets_singleton (List.mem_filterMap.mpr ⟨c, List.mem_singleton_self c, hl⟩)
  have ht' := drawTarget_of_colTargets_singleton (List.mem_filterMap.mpr ⟨c', List.mem_singleton_self c', hl'⟩)
  exact hne (spriteTargetsAreDistinct mode xo yo r c r c' l hxo hyo hr (List.mem_range.mp hc) hr
    (List.mem_range.mp hc') ht ht').2

theorem nodup_rowTargets (s : State) {xo yo n : Nat} (hxo : xo < 64) (hyo : yo < 32) (hn : n < 16) :
    (rowTargets s xo yo (List.range n)).Nodup := by
  have hlt {r : Nat} (hr : r ∈ List.range n) : r < 15 := by rw [List.mem_range] at hr; omega
  refine List.nodup_flatMap.mpr ⟨fun r hr => nodup_colTargets _ _ hxo hyo (hlt hr), ?_⟩
  refine List.nodup_range.pairwise_of_forall_ne fun r hr r' hr' hne l hl hl' => ?_
  obtain ⟨c, hc, -, ht⟩ := mem_colTargets.mp hl
  obtain ⟨c', hc', -, ht'⟩ := mem_colTargets.mp hl'
  exact hne (spriteTargetsAreDistinct _ xo yo r c r' c' l hxo hyo (hlt hr) (List.mem_range.mp hc) (hlt hr')
    (List.mem_range.mp hc') ht ht').1

/-! ### DRAW that completes (R121 to R127) -/

theorem exec_draw (x y : Nibble) (n : Nat) (s : State) :
    exec (.draw x y n) s = commit s (drawHandler x y n s.advancePc) := rfl

/-- What the engine has written when all targets of the sprite are plotted. -/
def drawnCanvas (x y : Nibble) (n : Nat) (s : State) : Canvas :=
  plotAll (rowTargets s (originX x s) (originY y s) (List.range n)) ⟨s.fb, false⟩

/-- A canvas put into the state: the framebuffer, and the collision as VF (R123). -/
def State.paint (cv : Canvas) (s : State) : State := { s.setFlag cv.collision with fb := cv.fb }

theorem drawHandler_of_drawOk {x y : Nibble} {n : Nat} {s : State} (h : DrawOk s x y n) :
    drawHandler x y n s = .ok (s.paint (drawnCanvas x y n s)) := by
  obtain ⟨cv, hcv⟩ := drawRows_ok_of (rs := List.range n) ⟨s.fb, false⟩ fun r hr => h r (List.mem_range.mp hr)
  simp only [drawHandler, hcv, drawRows_eq hcv]
  rfl

/-- The advance of pc before the handler changes nothing that DRAW reads. -/
theorem exec_draw_of_drawOk {x y : Nibble} {n : Nat} {s : State} (h : DrawOk s x y n) :
    exec (.draw x y n) s = .next (s.advancePc.paint (drawnCanvas x y n s)) := by
  rw [exec_draw, drawHandler_of_drawOk (s := s.advancePc) h]
  rfl

/-- The drawn canvas differs from the framebuffer in the covered pixels, which are distinct and so flip once each, and a
collision is a covered pixel that was on (R126, R129). -/
theorem drawnCanvas_spec (x y : Nibble) {n : Nat} (s : State) (hn : n < 16) :
    (∀ l, (drawnCanvas x y n s).fb.pixel l ≠ s.fb.pixel l ↔ Covers s x y n l) ∧
    ((drawnCanvas x y n s).collision = true ↔ ∃ l, Covers s x y n l ∧ s.fb.pixel l = true) := by
  have hlt : ∀ l ∈ rowTargets s (originX x s) (originY y s) (List.range n), l < 2048 := fun l hl => by
    obtain ⟨r, -, c, -, -, ht⟩ := mem_rowTargets.mp hl
    exact drawTarget_lt ht
  obtain ⟨hpixel, hcollision⟩ :=
    plotAll_spec _ ⟨s.fb, false⟩ (nodup_rowTargets s (originX_lt x s) (originY_lt y s) hn) hlt
  simp only [mem_rowTargets, Bool.false_eq_true, false_or] at hpixel hcollision
  refine ⟨fun l => ?_, hcollision⟩
  rw [drawnCanvas, hpixel, ← mem_rowTargets]
  cases s.fb.pixel l <;> simp

theorem State.getV_flagReg_paint (cv : Canvas) (s : State) : (s.paint cv).getV 0xF = flagByte cv.collision :=
  (State.getV_setFlag cv.collision 0xF s).trans (if_pos rfl)

/-- Settles O23: the state is the drawn canvas painted after the advance of pc. -/
theorem drawFlipsCoveredPixels : Obligations.DrawFlipsCoveredPixels := by
  intro x y n s hn hok
  obtain ⟨hpixel, hcollision⟩ := drawnCanvas_spec x y s hn
  refine ⟨_, exec_draw_of_drawOk hok, hpixel, fun h => ?_, fun h => ?_, rfl, fun k hk => ?_, rfl⟩
  · rw [State.getV_flagReg_paint, hcollision.mpr h]
    rfl
  · rw [State.getV_flagReg_paint, Bool.eq_false_iff.mpr (mt hcollision.mp h)]
    rfl
  · exact State.getV_setFlag_of_ne hk _ s

/-- Settles O27: a sprite of no rows never raises and covers no pixel. -/
theorem drawOfNoRowsClearsVF : Obligations.DrawOfNoRowsClearsVF := by
  intro x y s
  have hok : DrawOk s x y 0 := fun r hr => absurd hr (Nat.not_lt_zero r)
  have hnone (l : Nat) : ¬ Covers s x y 0 l := fun ⟨r, hr, _⟩ => Nat.not_lt_zero r hr
  obtain ⟨t, ht, hpixel, -, hclear, hpc, hv, hframe⟩ := drawFlipsCoveredPixels x y 0 s (by decide) hok
  have hfb : t.fb = s.fb := FrameBuffer.ext_pixel fun l _ => not_ne_iff.mp (mt (hpixel l).mp (hnone l))
  refine ⟨t, ht, hclear fun ⟨l, hl, _⟩ => hnone l hl, hpc, hv, ?_⟩
  rwa [← hfb] at hframe

/-! ### DRAW in the spec's own formulas (R122 to R127) -/

theorem spriteBit_iff_spriteSet (s : State) (r : Nat) {c : Nat} (hc : c < 8) :
    spriteBit (spriteByte s r) c = true ↔ SpriteSet s r c :=
  spriteBit_iff_and_ne_zero _ hc

theorem covers_iff_drawPlots (s : State) (x y : Nibble) (n l : Nat) : Covers s x y n l ↔ DrawPlots s x y n l := by
  refine exists_congr fun r => and_congr_right fun _ => exists_congr fun c => and_congr_right fun hc => ?_
  exact and_congr (spriteBit_iff_spriteSet s r hc) (drawTarget_eq_ok_some_iff ..)

/-- Settles O53: O23 with its conditions and the covered pixels put into the formulas. -/
theorem drawFollowsFormulas : Obligations.DrawFollowsFormulas := by
  intro x y n s hn hrows hpixels
  have hok : DrawOk s x y n := fun r hr => ⟨Nat.not_le_of_lt (hrows r hr), fun c hc ⟨hmode, hbit, hout⟩ =>
    Nat.not_le_of_lt (hpixels hmode r hr c hc ((spriteBit_iff_spriteSet s r hc).mp hbit)) hout⟩
  simpa only [covers_iff_drawPlots] using drawFlipsCoveredPixels x y n s hn hok

/-! ### Drawing twice (R127, log 15) -/

/-- What a sprite is drawn from is the same in both states: its origin, its bytes and the edge mode. -/
structure SameSprite (x y : Nibble) (s t : State) : Prop where
  column : originX x t = originX x s
  row : originY y t = originY y s
  index : t.i = s.i
  memory : t.mem = s.mem
  mode : t.edgeMode = s.edgeMode

/-- DRAW writes no register but VF, so a sprite with its origin in other registers stays as it is. -/
theorem sameSprite_of_frame {x y : Nibble} {s t : State} (hx : x ≠ 0xF) (hy : y ≠ 0xF)
    (h : OnlyRegistersAndPixels (fun k => k = 0xF) s t) : SameSprite x y s t := by
  obtain ⟨-, hv, hframe⟩ := h
  exact ⟨by rw [originX, hv x hx, originX], by rw [originY, hv y hy, originY], (congrArg State.i hframe :),
    (congrArg State.mem hframe :), (congrArg State.edgeMode hframe :)⟩

section
variable {x y : Nibble} {s t : State} (h : SameSprite x y s t)
include h

theorem SameSprite.rowAddr_eq (r : Nat) : rowAddr t r = rowAddr s r := by rw [rowAddr, h.index, rowAddr]

theorem SameSprite.spriteByte_eq (r : Nat) : spriteByte t r = spriteByte s r := by
  rw [spriteByte, h.memory, h.rowAddr_eq, spriteByte]

theorem SameSprite.drawOk_iff (n : Nat) : DrawOk t x y n ↔ DrawOk s x y n := by
  simp only [DrawOk, RowOut, PixelOut, h.rowAddr_eq, h.spriteByte_eq, h.column, h.row, h.mode]

theorem SameSprite.covers_iff (n l : Nat) : Covers t x y n l ↔ Covers s x y n l := by
  simp only [Covers, h.spriteByte_eq, h.column, h.row, h.mode]

end

/-- Settles O30: both drawings are O23's, of one sprite. A pixel flipped twice is as it was, and the second drawing meets
a covered pixel that is on exactly where it was off before the first. -/
theorem redrawRestoresFramebuffer : Obligations.RedrawRestoresFramebuffer := by
  intro x y n s hn hx hy hok
  obtain ⟨t, ht, hpixel, -, -, hframe⟩ := drawFlipsCoveredPixels x y n s hn hok
  have hsame : SameSprite x y s t := sameSprite_of_frame hx hy hframe
  obtain ⟨u, hu, hpixel', hset, hclear, -⟩ := drawFlipsCoveredPixels x y n t hn ((hsame.drawOk_iff n).mpr hok)
  simp only [hsame.covers_iff] at hpixel' hset hclear
  have hflip {l : Nat} (hl : Covers s x y n l) : t.fb.pixel l = !s.fb.pixel l := Bool.eq_not.mpr ((hpixel l).mpr hl)
  have hcollision : (∃ l, Covers s x y n l ∧ t.fb.pixel l = true) ↔ ∃ l, Covers s x y n l ∧ s.fb.pixel l = false :=
    exists_congr fun l => and_congr_right fun hl => by rw [hflip hl, Bool.not_eq_true']
  rw [hcollision] at hset hclear
  refine ⟨t, u, ht, hu, FrameBuffer.ext_pixel fun l _ => ?_, hset, hclear⟩
  by_cases hl : Covers s x y n l
  · rw [Bool.eq_not.mpr ((hpixel' l).mpr hl), hflip hl, Bool.not_not]
  · exact (not_ne_iff.mp (mt (hpixel' l).mp hl)).trans (not_ne_iff.mp (mt (hpixel l).mp hl))

/-! ### DRAW that faults (R124, R125, R194, R197) -/

/-- The handler raises what the engine raises. -/
theorem drawHandler_eq_error_iff {x y : Nibble} {n : Nat} {s : State} {f : Fault} :
    drawHandler x y n s = .error f ↔
      drawRows s (originX x s) (originY y s) (List.range n) ⟨s.fb, false⟩ = .error f := by
  unfold drawHandler
  cases drawRows s (originX x s) (originY y s) (List.range n) ⟨s.fb, false⟩ with
  | error g => simp
  | ok cv => simp

theorem drawRows_of_rowOut {s : State} {xo yo r : Nat} {rs : List Nat} {cv : Canvas} (h : RowOut s r) :
    drawRows s xo yo (r :: rs) cv = .error (.addressOutOfRange (rowAddr s r)) := by
  rw [drawRows, State.readByte_of_ge s h]

/-- A row inside memory draws its columns and hands its canvas on. -/
theorem drawRows_of_rowIn {s : State} {xo yo r : Nat} {rs : List Nat} {cv : Canvas} (h : ¬ RowOut s r) :
    drawRows s xo yo (r :: rs) cv =
      (drawColumns s.edgeMode (spriteByte s r) xo (yo + r) (List.range 8) cv).bind (drawRows s xo yo rs) := by
  simp only [drawRows, State.readByte_of_lt s (Nat.not_le.mp h), spriteByte]
  cases drawColumns s.edgeMode (Memory.read s.mem (rowAddr s r)) xo (yo + r) (List.range 8) cv with
  | error f => rfl
  | ok cv' => rfl

/-- When the rows before row r do not raise and row r raises f, DRAW takes f. -/
theorem exec_draw_of_row_error {x y : Nibble} {n r : Nat} {s : State} {f : Fault} (hr : r < n) (hok : DrawOk s x y r)
    (hrow : ∀ rs cv, drawRows s.advancePc (originX x s) (originY y s) (r :: rs) cv = .error f) :
    exec (.draw x y n) s = .next (takeFault f (some s.ir) s) := by
  obtain ⟨cv, hcv⟩ := drawRows_ok_of (s := s.advancePc) (x := x) (y := y) (rs := List.range r) ⟨s.fb, false⟩
    fun k hk => hok k (List.mem_range.mp hk)
  have herr : drawHandler x y n s.advancePc = .error f := by
    rw [drawHandler_eq_error_iff, range_split hr]
    exact (drawRows_append hcv).trans (hrow _ cv)
  rw [exec_draw, herr, commit_error]

/-- Settles O25: the read of row r raises. -/
theorem drawFaultsOnRowBeyondMemory : Obligations.DrawFaultsOnRowBeyondMemory :=
  fun _ _ _ _ s hr hout hok => exec_draw_of_row_error hr hok fun _ _ => drawRows_of_rowOut (s := s.advancePc) hout

/-- A row raises at its first set bit beyond the array. -/
theorem drawColumns_of_pixelOut {s : State} {x y : Nibble} {r c : Nat} (hc : c < 8) (hout : PixelOut s x y r c)
    (hbefore : ∀ d < c, ¬ PixelOut s x y r d) (cv : Canvas) :
    drawColumns s.edgeMode (spriteByte s r) (originX x s) (originY y s + r) (List.range 8) cv =
      .error (.framebufferOutOfRange ((originY y s + r) * 64 + (originX x s + c))) := by
  obtain ⟨cv', hcv'⟩ := drawColumns_ok (mode := s.edgeMode) (b := spriteByte s r) (xo := originX x s)
    (row := originY y s + r) (cs := List.range c) cv fun d hd hbit f hf =>
      have ⟨hmode, hge, _⟩ := (drawTarget_eq_error_iff ..).mp hf
      hbefore d (List.mem_range.mp hd) ⟨hmode, hbit, hge⟩
  obtain ⟨hmode, hbit, hge⟩ := hout
  have htarget := (drawTarget_eq_error_iff ..).mpr ⟨hmode, hge, rfl⟩
  rw [range_split hc, drawColumns_append hcv', drawColumns_set hbit, htarget]

/-- Settles O26: row r is read, and its first set bit beyond the array raises. -/
theorem drawFaultsOnPixelBeyondArray : Obligations.DrawFaultsOnPixelBeyondArray := by
  intro x y n r c s hr hc hok hin hout hbefore
  refine exec_draw_of_row_error hr hok fun rs cv => ?_
  have hcols := drawColumns_of_pixelOut (s := s.advancePc) hc hout hbefore cv
  exact (drawRows_of_rowIn (s := s.advancePc) hin).trans (congrArg (Except.bind · _) hcols)

/-- Settles O29: the fault of the engine is that of a row's read or of a set bit, and only SPILL has the second. -/
theorem onlySpillFaultsOnPixels : Obligations.OnlySpillFaultsOnPixels := by
  intro x y n s t hrun hmode ht hfaulted
  obtain hok | ⟨f, hf, rfl⟩ := commit_cases ht
  · obtain ⟨c, fb, rfl⟩ := drawHandler_eq_ok hok
    exact absurd (hfaulted.symm.trans hrun) (by decide)
  · obtain ⟨r, hr, ⟨hout, rfl⟩ | ⟨-, c, -, -, htarget⟩⟩ := drawRows_error (drawHandler_eq_error_iff.mp hf)
    · exact ⟨rfl, r, List.mem_range.mp hr, hout⟩
    · exact absurd ((drawTarget_eq_error_iff ..).mp htarget).1 hmode

/-! ### The three edge modes inside the screen (R128) -/

/-- The state in another edge mode. -/
def State.withMode (m : EdgeMode) (s : State) : State := { s with edgeMode := m }

/-- Committing an answer that differs only in the edge mode gives a state that differs only there. -/
theorem commit_withMode {s t : State} {m : EdgeMode} {a : Except Fault State} (h : commit (s.withMode m) a = .next t)
    (m' : EdgeMode) : commit (s.withMode m') (a.map (State.withMode m')) = .next (t.withMode m') := by
  cases a with
  | ok u => cases h; rfl
  | error f => cases h; rfl

/-- The engine reads the edge mode only for a set bit, and inside the screen the modes have one target. -/
theorem drawRows_withMode {s : State} {xo yo : Nat} {rs : List Nat} (cv : Canvas) (m m' : EdgeMode)
    (h : ∀ r ∈ rs, ∀ c < 8, spriteBit (spriteByte s r) c = true → xo + c < 64 ∧ yo + r < 32) :
    drawRows (s.withMode m) xo yo rs cv = drawRows (s.withMode m') xo yo rs cv := by
  induction rs generalizing cv with
  | nil => rfl
  | cons r rs ih =>
    obtain ⟨hrow, hrest⟩ := List.forall_mem_cons.mp h
    by_cases hout : RowOut s r
    · exact (drawRows_of_rowOut (s := s.withMode m) hout).trans (drawRows_of_rowOut (s := s.withMode m') hout).symm
    · rw [drawRows_of_rowIn (s := s.withMode m) hout, drawRows_of_rowIn (s := s.withMode m') hout,
        funext fun cv => ih cv hrest]
      exact congrArg (Except.bind · _) (drawColumns_mode fun c hc => hrow c (List.mem_range.mp hc))

theorem drawHandler_withMode {x y : Nibble} {n : Nat} {s : State} (m m' : EdgeMode)
    (h : ∀ r < n, ∀ c < 8, spriteBit (spriteByte s r) c = true → originX x s + c < 64 ∧ originY y s + r < 32) :
    drawHandler x y n (s.withMode m') = (drawHandler x y n (s.withMode m)).map (State.withMode m') := by
  have hrows : drawRows (s.withMode m') (originX x (s.withMode m')) (originY y (s.withMode m')) (List.range n)
      ⟨(s.withMode m').fb, false⟩ = drawRows (s.withMode m) (originX x (s.withMode m)) (originY y (s.withMode m))
      (List.range n) ⟨(s.withMode m).fb, false⟩ :=
    drawRows_withMode ⟨s.fb, false⟩ m' m fun r hr => h r (List.mem_range.mp hr)
  simp only [drawHandler, hrows]
  cases drawRows (s.withMode m) (originX x (s.withMode m)) (originY y (s.withMode m)) (List.range n)
      ⟨(s.withMode m).fb, false⟩ with
  | error f => rfl
  | ok cv => rfl

/-- Settles O28: the engine answers the same in both modes, a row's fault included. -/
theorem edgeModesAgreeInside : Obligations.EdgeModesAgreeInside := by
  intro x y n s t m m' hinside ht
  have hhandler := drawHandler_withMode (s := s.advancePc) m m' hinside
  exact (congrArg (commit _) hhandler).trans (commit_withMode ht m')

end Sys2Proof.Machine

/-! Control flow: RETURN and CALL when they complete and when they fault, RETURN after CALL, the jumps and the skips. -/

namespace Sys2Proof.Machine

/-! ### RETURN and CALL (R140, R142) -/

theorem exec_ret (mid : Byte) (s : State) : exec (.ret mid) s = commit s (returnHandler s.advancePc) := rfl

theorem exec_call (nnn : Addr) (s : State) : exec (.call nnn) s = commit s (callHandler nnn s.advancePc) := rfl

/-- The advance of pc does not show in a RETURN that completes: pc comes from the popped slot. -/
theorem exec_ret_of_pos (mid : Byte) {s : State} (h : 0 < s.sp.val) :
    exec (.ret mid) s = .next { s with sp := ⟨s.sp.val - 1, by omega⟩, pc := s.slot ⟨s.sp.val - 1, by omega⟩ } := by
  rw [exec_ret, returnHandler, State.pop_of_pos (s := s.advancePc) h]
  rfl

theorem exec_ret_of_empty (mid : Byte) {s : State} (h : s.sp = 0) :
    exec (.ret mid) s = .next (takeFault .stackUnderflow (some s.ir) s) := by
  rw [exec_ret, returnHandler, State.pop_of_empty (s := s.advancePc) h]
  rfl

/-- The pushed return address is a + 2, since pc is advanced before the handler (R105). -/
theorem exec_call_of_lt (nnn : Addr) {s : State} (h : s.sp.val < 16) :
    exec (.call nnn) s = .next { s with stack := s.stack.set s.sp.val (s.pc + 2) h, sp := ⟨s.sp.val + 1, by omega⟩,
                                        pc := zextAddr nnn } := by
  rw [exec_call, callHandler, State.push_of_lt (s := s.advancePc) h]
  rfl

theorem exec_call_of_full (nnn : Addr) {s : State} (h : s.sp = 16) :
    exec (.call nnn) s = .next (takeFault .stackOverflow (some s.ir) s) := by
  rw [exec_call, callHandler, State.push_of_full (s := s.advancePc) h]
  rfl

/-- Settles O31: a pop with SP above 0, a fault with SP = 0. -/
theorem returnPopsCallStack : Obligations.ReturnPopsCallStack :=
  fun mid _ => ⟨Laws.RoundTrip.ret mid rfl, exec_ret_of_pos mid, exec_ret_of_empty mid⟩

/-- Settles O32: a push with SP below 16, a fault with SP = 16. -/
theorem callPushesReturnAddress : Obligations.CallPushesReturnAddress :=
  fun nnn _ => ⟨Laws.RoundTrip.call nnn rfl, exec_call_of_lt nnn, exec_call_of_full nnn⟩

/-- Settles O33: the CALL leaves SP above 0, so the RETURN completes; it reads the slot that the CALL wrote. -/
theorem returnUndoesCall : Obligations.ReturnUndoesCall := by
  intro nnn mid s hsp
  have hpopped : (s.stack.set s.sp.val (s.pc + 2) hsp)[s.sp.val] = s.pc + 2 := Vector.getElem_set_self hsp
  refine ⟨_, _, exec_call_of_lt nnn hsp, exec_ret_of_pos mid (Nat.succ_pos s.sp.val), ?_, fun k hk => ?_⟩
  · exact congrArg (fun w => ({ s with pc := w, stack := s.stack.set s.sp.val (s.pc + 2) hsp } : State)) hpopped
  · exact (State.slot_set_stack s s.sp.val hsp (s.pc + 2) k).trans (if_neg hk.symm)

/-! ### Jumps (R141, R147) -/

/-- Settles O34: the advance of pc does not show, for the jump writes pc. -/
theorem jumpSetsPc : Obligations.JumpSetsPc :=
  fun nnn _ => ⟨Laws.RoundTrip.jump nnn rfl, rfl⟩

/-- The sum of a byte and a 12-bit address does not wrap at 16 bits. -/
theorem toNat_offsetTarget (v0 : Byte) (nnn : Addr) : (offsetTarget v0 nnn).toNat = v0.toNat + nnn.toNat := by
  simp only [offsetTarget, zextAddr]
  bv_omega

/-- Settles O37: the target is the exact sum, at most 0xFF + 0xFFF. -/
theorem jumpOffsetAddsV0 : Obligations.JumpOffsetAddsV0 := by
  intro nnn s
  have hsum := toNat_offsetTarget (s.getV 0x0) nnn
  exact ⟨Laws.RoundTrip.jumpOffset nnn rfl, _, rfl, rfl, hsum, hsum.trans_le (by omega)⟩

/-! ### Skips (R143 to R146) -/

/-- A skip whose test `c` says whether `p` holds completes with pc by `p`, and changes nothing else. -/
theorem next_skipIf {c : Bool} {p : Prop} [Decidable p] (h : c = true ↔ p) (s : State) :
    Host.Outcome.next (φ := Fault) (ρ := Refusal) (s.advancePc.skipIf c) =
      .next { s with pc := if p then s.pc + 4 else s.pc + 2 } := by
  rw [State.skipIf_advancePc, ite_congr (propext h) (fun _ => rfl) (fun _ => rfl)]
  rfl

/-- Settles O35: the words decode as encoded, and the test of each skip says whether its condition holds. -/
theorem skipsOnImmediate : Obligations.SkipsOnImmediate :=
  fun x nn s => ⟨Laws.RoundTrip.skipEqImm x nn rfl, Laws.RoundTrip.skipNeImm x nn rfl,
    next_skipIf beq_iff_eq s, next_skipIf bne_iff_ne s⟩

/-- Settles O36: as O35; the ignored bits are decoded and the meaning does not read them. -/
theorem skipsOnRegister : Obligations.SkipsOnRegister :=
  fun x y low s => ⟨Laws.RoundTrip.skipEqReg x y low rfl, Laws.RoundTrip.skipNeReg x y low rfl,
    next_skipIf beq_iff_eq s, next_skipIf bne_iff_ne s⟩

end Sys2Proof.Machine

/-! Loads and the ALU: an instruction that writes one register, one that writes VF and then its destination, and LOAD_INDEX. -/

namespace Sys2Proof.Machine

/-! ### One register written (R160 to R165, R169) -/

theorem State.getV_setV_self (x : Nibble) (b : Byte) (s : State) : (s.setV x b).getV x = b :=
  (State.getV_setV x x b s).trans (if_pos rfl)

theorem onlyRegisters_setV (x : Nibble) (b : Byte) (s : State) :
    OnlyRegisters (fun k => k = x) s (s.advancePc.setV x b) :=
  ⟨rfl, fun _ hk => State.getV_setV_of_ne hk b s.advancePc, rfl⟩

/-- An instruction whose meaning is one register write after the advance of pc: what its destination holds, and its frame. -/
theorem exists_next_of_exec_setV {i : Instr} {x : Nibble} {b : Byte} {s : State}
    (h : exec i s = .next (s.advancePc.setV x b)) :
    ∃ t, exec i s = .next t ∧ t.getV x = b ∧ OnlyRegisters (fun k => k = x) s t :=
  ⟨_, h, State.getV_setV_self x b s.advancePc, onlyRegisters_setV x b s⟩

/-- Settles O40: each is one write to V[X]. -/
theorem loadsWriteTheirRegister : Obligations.LoadsWriteTheirRegister :=
  fun x y nn _ => ⟨Laws.RoundTrip.loadImm x nn rfl, Laws.RoundTrip.move x y rfl,
    exists_next_of_exec_setV rfl, exists_next_of_exec_setV rfl⟩

/-- Settles O41: one write to V[X], of a sum of bytes, which is the sum modulo 256; no flag is written. -/
theorem addImmWrapsWithoutFlag : Obligations.AddImmWrapsWithoutFlag := by
  intro x nn s
  obtain ⟨t, hexec, hsum, hframe⟩ :=
    exists_next_of_exec_setV (i := .addImm x nn) (b := s.getV x + nn) (s := s) rfl
  exact ⟨Laws.RoundTrip.addImm x nn rfl, t, hexec, by rw [hsum, BitVec.toNat_add], hframe⟩

/-- Settles O42: each is one write to V[X], so VF changes only as the destination (R171). -/
theorem logicalOperationsWriteNoFlag : Obligations.LogicalOperationsWriteNoFlag :=
  fun x y _ => ⟨Laws.RoundTrip.or x y rfl, Laws.RoundTrip.and x y rfl, Laws.RoundTrip.xor x y rfl,
    exists_next_of_exec_setV rfl, exists_next_of_exec_setV rfl, exists_next_of_exec_setV rfl⟩

/-- Settles O46: one write to V[X], of a byte masked by NN. -/
theorem randomMasksTheSuppliedByte : Obligations.RandomMasksTheSuppliedByte := by
  intro x nn s
  obtain ⟨t, hexec, hbyte, hframe⟩ :=
    exists_next_of_exec_setV (i := .random x nn) (b := s.rnd &&& nn) (s := s) rfl
  refine ⟨Laws.RoundTrip.random x nn rfl, t, hexec, hbyte, ?_, hframe⟩
  rw [hbyte, BitVec.and_assoc, BitVec.and_not_self]
  exact BitVec.and_zero

/-! ### VF written, then the destination (R166, R167) -/

theorem flagByte_carryOut (a b : Byte) : flagByte (carryOut a b) = if a.toNat + b.toNat > 255 then 1 else 0 := by
  simp [flagByte, carryOut]

theorem flagByte_strictlyGreater (a b : Byte) :
    flagByte (strictlyGreater a b) = if a.toNat > b.toNat then 1 else 0 := by
  simp [flagByte, strictlyGreater]

/-- A register read after VF is written: the flag where the register is VF, its old value elsewhere (R11). -/
theorem State.getV_setFlag_eq_ite (c : Bool) (k : Nibble) (s : State) :
    (s.setFlag c).getV k = if k = 0xF then flagByte c else s.getV k := by
  simp only [State.getV_setFlag, flagReg, eq_comm]

/-- The flag stands in VF unless the destination, written last, is VF itself. -/
theorem State.getV_flagReg_setV_setFlag {x : Nibble} (hx : x ≠ 0xF) (b : Byte) (c : Bool) (s : State) :
    ((s.setFlag c).setV x b).getV 0xF = flagByte c := by
  rw [State.getV_setV_of_ne hx.symm, State.getV_setFlag_eq_ite, if_pos rfl]

theorem onlyRegisters_setV_setFlag (x : Nibble) (b : Byte) (c : Bool) (s : State) :
    OnlyRegisters (fun k => k = x ∨ k = 0xF) s ((s.advancePc.setFlag c).setV x b) :=
  ⟨rfl, fun _ hk => State.getV_setV_setFlag_of_ne hk b c s.advancePc, rfl⟩

/-- An instruction whose meaning, after the advance of pc, is a write of VF and then one of V[X]: what V[X] and VF hold,
and its frame. -/
theorem exists_next_of_exec_setV_setFlag {i : Instr} {x : Nibble} {b : Byte} {c : Bool} {s : State}
    (h : exec i s = .next ((s.advancePc.setFlag c).setV x b)) :
    ∃ t, exec i s = .next t ∧ t.getV x = b ∧ (x ≠ 0xF → t.getV 0xF = flagByte c) ∧
      OnlyRegisters (fun k => k = x ∨ k = 0xF) s t :=
  ⟨_, h, State.getV_setV_self x b _, fun hx => State.getV_flagReg_setV_setFlag hx b c s.advancePc,
    onlyRegisters_setV_setFlag x b c s⟩

/-- ADD_CARRY forms its flag and its sum from the registers before it (R166). -/
theorem exec_addCarry (x y : Nibble) (s : State) :
    exec (.addCarry x y) s = .next ((s.advancePc.setFlag (carryOut (s.getV x) (s.getV y))).setV x
      (BitVec.ofNat 8 ((s.getV x).toNat + (s.getV y).toNat))) := rfl

/-- SUB_BORROW forms its flag from the registers before it, and its difference from those after the flag (R167, D14). -/
theorem exec_subBorrow (x y : Nibble) (s : State) :
    exec (.subBorrow x y) s = .next ((s.advancePc.setFlag (strictlyGreater (s.getV x) (s.getV y))).setV x
      ((s.setFlag (strictlyGreater (s.getV x) (s.getV y))).getV x -
        (s.setFlag (strictlyGreater (s.getV x) (s.getV y))).getV y)) := rfl

/-- Settles O43: the carry is written first and the sum of the old registers last, so the sum stands where X = 0xF. -/
theorem addCarrySetsFlagThenSum : Obligations.AddCarrySetsFlagThenSum := by
  intro x y s
  obtain ⟨t, hexec, hsum, hflag, hframe⟩ := exists_next_of_exec_setV_setFlag (exec_addCarry x y s)
  rw [flagByte_carryOut] at hflag
  exact ⟨Laws.RoundTrip.addCarry x y rfl, t, hexec, by rw [hsum, BitVec.toNat_ofNat], hflag, hframe⟩

/-- Settles O44: the operands of the difference are read after the flag's write, so each is the flag where it is VF. -/
theorem subBorrowReadsAfterFlag : Obligations.SubBorrowReadsAfterFlag := by
  rintro x y s f rfl
  obtain ⟨t, hexec, hdiff, hflag, hframe⟩ := exists_next_of_exec_setV_setFlag (exec_subBorrow x y s)
  simp only [State.getV_setFlag_eq_ite, flagByte_strictlyGreater] at hdiff hflag
  exact ⟨Laws.RoundTrip.subBorrow x y rfl, t, hexec, hdiff, hflag, hframe⟩

/-! ### LOAD_INDEX (R168) -/

/-- The zero-extension keeps the value of an address operand (R10). -/
theorem toNat_zextAddr (nnn : Addr) : (zextAddr nnn).toNat = nnn.toNat :=
  BitVec.toNat_setWidth_of_le (by decide)

/-- Settles O45: I takes the operand, which a 12-bit field keeps at most 0xFFF. -/
theorem loadIndexSetsI : Obligations.LoadIndexSetsI :=
  fun nnn _ => ⟨Laws.RoundTrip.loadIndex nnn rfl, _, rfl, toNat_zextAddr nnn, rfl⟩

end Sys2Proof.Machine

/-! Faults after the fetch: the conditions that raise one, and what the fault entry records. -/

namespace Sys2Proof.Machine

/-! ### Which instructions fault (R190 to R194) -/

theorem State.faulted_skipIf (c : Bool) (s : State) : (s.skipIf c).faulted = s.faulted := by
  rw [State.skipIf_eq, State.faulted_setPc]

/-- A DRAW that reads or plots out of range has a fault, for its handler completes on no other state than DrawOk's. -/
theorem exec_draw_of_not_drawOk {x y : Nibble} {n : Nat} {s : State} (h : ¬ DrawOk s x y n) :
    ∃ f, exec (.draw x y n) s = .next (takeFault f (some s.ir) s) := by
  rw [exec_draw]
  cases hhandler : drawHandler x y n s.advancePc with
  | ok t => exact absurd ((drawHandler_ok_iff x y n s.advancePc).mp ⟨t, hhandler⟩) h
  | error f => exact ⟨f, rfl⟩

/-- Under a condition of R190 the instruction's fault is taken. -/
theorem exec_of_handlerFaults {i : Instr} {s : State} (h : HandlerFaults i s) :
    ∃ f, exec i s = .next (takeFault f (some s.ir) s) := by
  cases i with
  | ret mid => exact ⟨_, exec_ret_of_empty mid h⟩
  | call nnn => exact ⟨_, exec_call_of_full nnn h⟩
  | draw x y n => exact exec_draw_of_not_drawOk h
  | _ => exact h.elim

/-- Under no condition of R190 the instruction leaves FAULTED as it is. -/
theorem exec_of_not_handlerFaults {i : Instr} {s : State} (h : ¬ HandlerFaults i s) :
    ∃ t, exec i s = .next t ∧ t.faulted = s.faulted := by
  cases i with
  | ret mid => exact ⟨_, exec_ret_of_pos mid (Fin.pos_of_ne_zero h), rfl⟩
  | call nnn => exact ⟨_, exec_call_of_lt nnn (Fin.val_lt_last h), rfl⟩
  | draw x y n => exact ⟨_, exec_draw_of_drawOk (not_not.mp h), rfl⟩
  | skipEqImm | skipNeImm | skipEqReg | skipNeReg => exact ⟨_, rfl, State.faulted_skipIf _ s.advancePc⟩
  | _ => exact ⟨_, rfl, rfl⟩

/-- Settles O14: the fault entry sets FAULTED, and without a fault a running core stays not FAULTED. -/
theorem onlyListedConditionsFault : Obligations.OnlyListedConditionsFault := by
  intro i s hrun
  by_cases h : HandlerFaults i s
  · obtain ⟨f, hexec⟩ := exec_of_handlerFaults h
    exact ⟨_, hexec, iff_of_true (State.faulted_takeFault f _ s) h⟩
  · obtain ⟨t, hexec, hkept⟩ := exec_of_not_handlerFaults h
    exact ⟨t, hexec, iff_of_false (Bool.eq_false_iff.mp (hkept.trans hrun)) h⟩

/-! ### What the fault entry records (R195) -/

/-- A step that leaves a running core FAULTED replies FAULT. -/
theorem replyOf_eq_fault {s t : State} (hs : s.faulted = false) (ht : t.faulted = true) : replyOf s t = .fault := by
  simp [replyOf, hs, ht]

/-- Settles O13: the fault is taken on the state from before the handler; its code and value are those of R190. -/
theorem faultEntryRecords : Obligations.FaultEntryRecords := by
  intro s f hrun
  have hfaulted : (takeFault f (some s.ir) s).faulted = true := State.faulted_takeFault f _ s
  refine ⟨_, commit_error s f, rfl, hfaulted, State.started_takeFault f _ s, rfl, rfl, State.finsnValid_takeFault f _ s,
    replyOf_eq_fault hrun hfaulted, presented_of_faulted (.inr hfaulted), ?_, ?_, ?_, ?_⟩
  · rintro a rfl
    exact ⟨rfl, rfl⟩
  · rintro rfl
    exact ⟨rfl, rfl⟩
  · rintro rfl
    exact ⟨rfl, rfl⟩
  · rintro l rfl
    exact ⟨rfl, rfl⟩

end Sys2Proof.Machine

/-! The host's reset and loads, and a step at an idle end. -/

namespace Sys2Proof.Machine

/-! ### Loads (R223 to R225) -/

theorem hostLoad_of_accepted {s : State} {rom : List Byte} (hs : s.started = false) (hlen : rom.length ≤ 3584) :
    hostLoad rom s = (s.writeBytes 0x200 rom).setLdstat 1 :=
  (if_neg (Bool.eq_false_iff.mp hs)).trans (if_neg (Nat.not_lt.mpr hlen))

theorem hostLoad_of_tooLarge {s : State} {rom : List Byte} (hs : s.started = false) (hlen : 3584 < rom.length) :
    hostLoad rom s = s.setLdstat 2 :=
  (if_neg (Bool.eq_false_iff.mp hs)).trans (if_pos hlen)

theorem hostLoad_of_late {s : State} {rom : List Byte} (hs : s.started = true) (hlen : rom.length ≤ 3584) :
    hostLoad rom s = s.setLdstat 3 :=
  (if_pos hs).trans (if_neg (Nat.not_lt.mpr hlen))

/-- Settles O20: an accepted load writes the ROM's bytes, which end within memory, and then LDSTAT. -/
theorem loadCopiesRom : Obligations.LoadCopiesRom := by
  intro s rom hmem hs hlen
  have hfits : 0x200 + rom.length ≤ 4096 := by omega
  obtain ⟨hcopied, hkept⟩ := State.read_writeBytes rom 0x200 s hmem hfits
  rw [hostLoad_of_accepted hs hlen, State.mem_setLdstat]
  exact ⟨hcopied, hkept, congrArg (State.setLdstat 1) (State.writeBytes_frame rom 0x200 s)⟩

/-- Settles O21: each refusal writes LDSTAT alone; where both apply, the code is one of the two. -/
theorem refusedLoadWritesNothing : Obligations.RefusedLoadWritesNothing := by
  refine fun s rom => ⟨hostLoad_of_tooLarge, hostLoad_of_late, fun hs _ => ?_⟩
  obtain ⟨c, heq, rfl | rfl⟩ := hostLoad_started (rom := rom) hs
  · exact .inl heq
  · exact .inr heq

/-! ### An idle end (R228) -/

/-- Setting STARTED again changes nothing. -/
theorem State.setStarted_of_started {s : State} (h : s.started = true) : s.setStarted = s := by
  have hstatus : s.status ||| BitVec.twoPow 8 1 = s.status := by
    ext i hi
    by_cases hbit : i = 1
    · subst hbit
      have hset : s.status[1] = true := h
      simp [hset]
    · simp [hbit]
  exact congrArg (fun b => ({ s with status := b } : State)) hstatus

/-- An address a fetch can start at is its own low 12 bits, so a jump can name it (R76, R141). -/
theorem zextAddr_setWidth_of_fetchOk {s : State} (h : FetchOk s) : zextAddr (s.pc.setWidth 12) = s.pc := by
  unfold FetchOk at h
  unfold zextAddr
  bv_omega

/-- A step that leaves a running core not FAULTED replies DONE. -/
theorem replyOf_eq_done {s t : State} (hs : s.faulted = false) (ht : t.faulted = false) : replyOf s t = .done := by
  simp [replyOf, hs, ht]

/-- A further step at an idle end writes IR and the random byte's fields alone: the jump writes pc with the value it
has, and STARTED is set already. -/
theorem stepWith_at_idleEnd {s : State} (rnd : Byte) (hrun : Running s) (hstarted : s.started = true)
    (hpc : FetchOk s) (hidle : s.fetch = .ok (wordA 0x1 (s.pc.setWidth 12))) :
    stepWith rnd s =
      .next { s with ir := wordA 0x1 (s.pc.setWidth 12), rnd := rnd, rndIndex := s.rndIndex + 1 } := by
  obtain ⟨hdecode, hexec⟩ := jumpSetsPc (s.pc.setWidth 12) { s.accept rnd with ir := wordA 0x1 (s.pc.setWidth 12) }
  have htarget : (s.pc.setWidth 12).setWidth 16 = s.pc := zextAddr_setWidth_of_fetchOk hpc
  rw [stepWith_of_fetch_ok rnd hrun hidle, hdecode, hexec, State.accept, State.setStarted_of_started hstarted, htarget]

/-- Settles O39: IR and the random byte's fields, which the step writes, are no state of the core. -/
theorem idleEndChangesNothing : Obligations.IdleEndChangesNothing := fun _ rnd hrun hstarted hpc hidle =>
  ⟨_, stepWith_at_idleEnd rnd hrun hstarted hpc hidle, rfl, replyOf_eq_done hrun hrun⟩

/-! ### Reset (R39, R220) -/

@[simp] theorem State.getV_hostReset (k : Nibble) (s : State) : (hostReset s).getV k = 0 :=
  Vector.getElem_replicate k.isLt

@[simp] theorem State.slot_hostReset (k : Fin 16) (s : State) : (hostReset s).slot k = 0 :=
  Vector.getElem_replicate k.isLt

/-- Settles O19: every field but the host's random count and edge mode is that of `State.reset`. -/
theorem resetLeavesSpecValues : Obligations.ResetLeavesSpecValues := fun s =>
  ⟨fun k => State.getV_hostReset k s, rfl, rfl, rfl, fun k => State.slot_hostReset k s, Memory.read_nil,
    FrameBuffer.pixel_allOff, rfl, faulted_hostReset s, started_hostReset s⟩

end Sys2Proof.Machine
